-- ==== Sys2Proof/Word.lean ====
section
/-! DEFINITION. The widths the engine computes with: bytes, 16-bit XOR characters, 32-bit words.

Rule R10 (00_scope.md): a byte is an unsigned integer 0 to 255, a word an unsigned 32-bit integer.
Rule R9: one XOR character has `XW = 16` bits.  Nothing in the engine is signed (rule R11). -/

namespace Sys2Proof

/-- A byte (rule R10); also a field element of GF(2^8) (rule R110). -/
abbrev Byte := BitVec 8

/-- One XOR character, `XW = 16` bits (rules R9, R191). -/
abbrev Char16 := BitVec 16

/-- A 32-bit word: a command word, response data, a round-key word, a CSR value (rules R10, R71). -/
abbrev Word := BitVec 32

end Sys2Proof
end

