-- ==== Sys2Proof/Syntax.lean ====
section
/-! DEFINITION. The thirty commands of rule R74 (30_encoding.md), one constructor per row of spec/opcode_table.json.

Operands are the byte fields of rule R71 as they stand: `a`, `b`, `c` are bytes, `imm16` is the 16-bit field of format H.
Every value of every operand is a legal encoding (rule R73), so a term of `Instr` is well-formed by its type; an index that is
too large for its store faults when the command executes. -/

namespace Sys2Proof

/-- The command set, version 1 (rules R2, R74). -/
inductive Instr where
  /-- NOP (rule R91). -/
  | nop
  /-- SRST, soft reset (rule R93). -/
  | srst
  /-- CSRR a: respond with CSR `a` (rule R92). -/
  | csrr (a : Byte)
  /-- KCLR: clear the key store (rule R94). -/
  | kclr
  /-- KPUSH c: append one key byte (rule R95). -/
  | kpush (c : Byte)
  /-- KEXP: run the key schedule (rule R150). -/
  | kexp
  /-- RKRD a: respond with `RK[a]` (rule R98). -/
  | rkrd (a : Byte)
  /-- BWR a, c: `BLK[a] <- c` (rule R99). -/
  | bwr (a c : Byte)
  /-- BRD a: respond with `BLK[a]` (rule R100). -/
  | brd (a : Byte)
  /-- TOST: `ST <- toState(BLK)` (rule R133). -/
  | tost
  /-- FRST: `BLK <- fromState(ST)` (rule R134). -/
  | frst
  /-- SWR a, b, c: `ST[a][b] <- c`, row then column (rule R101). -/
  | swr (a b c : Byte)
  /-- SRD a, b: respond with `ST[a][b]` (rule R102). -/
  | srd (a b : Byte)
  /-- SUBB: SubBytes on ST (rule R171). -/
  | subb
  /-- ISUBB: InvSubBytes on ST (rule R172). -/
  | isubb
  /-- SHR: ShiftRows on ST (rule R173). -/
  | shr
  /-- ISHR: InvShiftRows on ST (rule R174). -/
  | ishr
  /-- MIXC: MixColumns on ST (rule R175). -/
  | mixc
  /-- IMIXC: InvMixColumns on ST (rule R176). -/
  | imixc
  /-- ARK a: AddRoundKey with round key `a` (rule R177). -/
  | ark (a : Byte)
  /-- ENC: forward cipher on BLK (rule R183). -/
  | enc
  /-- DEC: inverse cipher on BLK (rule R184). -/
  | dec
  /-- GFMUL a, c: respond with `gfmul(a, c)` (rule R114). -/
  | gfmul (a c : Byte)
  /-- SBOX c: respond with `SBOX[c]` (rule R124). -/
  | sbox (c : Byte)
  /-- ISBOX c: respond with `INVSBOX[c]` (rule R125). -/
  | isbox (c : Byte)
  /-- RCON a: respond with `RCON[a]` (rule R126). -/
  | rcon (a : Byte)
  /-- XKCLR: clear the XOR key store (rule R192). -/
  | xkclr
  /-- XKPUSH imm16: append one XOR key character (rule R193). -/
  | xkpush (imm16 : Char16)
  /-- XRST: `XPOS <- 0` (rule R194). -/
  | xrst
  /-- XSTEP imm16: respond with the character XOR the key character, advance (rule R195). -/
  | xstep (imm16 : Char16)
  deriving DecidableEq, Repr

/-- Why a word is no command (rule R75): the two ways decoding can refuse a word. -/
inductive DecodeError where
  /-- The opcode is none of the thirty (rule R76). -/
  | illegalOpcode
  /-- The opcode is legal and a reserved bit of its format is 1 (rule R77). -/
  | reservedBit
  deriving DecidableEq, Repr

/-- The seven formats of rule R72. -/
inductive Format where
  | N | A | C | AC | AB | ABC | H
  deriving DecidableEq, Repr

end Sys2Proof
end

