-- ==== Sys2Proof/WellFormed.lean ====
section
/-! DEFINITION. Which 32-bit words are commands, said once from rules R72, R74 and R76, apart from the decoder.

A term of `Instr` needs no check: its operands have exactly the width of their fields, and rule R73 makes every value of them a
legal encoding.  What can be ill-formed is the command WORD the host presents.  The two checks below are written from the lists
of rules R76 and R72 themselves, not from the decoder's rows, so that the two can be compared. -/

namespace Sys2Proof

/-- The 226 opcode values rule R76 lists as illegal, as ranges. -/
def illegalOpcode (op : Nat) : Bool :=
  (0x03 ≤ op && op ≤ 0x0F) || (0x14 ≤ op && op ≤ 0x1F) || (0x26 ≤ op && op ≤ 0x2F) ||
  (0x37 ≤ op && op ≤ 0x3F) || (0x42 ≤ op && op ≤ 0x4F) || (0x54 ≤ op && op ≤ 0x5F) || 0x64 ≤ op

/-- The bits of a word that its opcode's format reserves (rule R72: the mask without the opcode field, by "used by"). -/
def reservedBits (op : Nat) : Word :=
  if op = 0x02 ∨ op = 0x13 ∨ op = 0x21 ∨ op = 0x36 ∨ op = 0x53 then 0x0000FFFF       -- A: CSRR RKRD BRD ARK RCON
  else if op = 0x11 ∨ op = 0x51 ∨ op = 0x52 then 0x00FFFF00                           -- C: KPUSH SBOX ISBOX
  else if op = 0x20 ∨ op = 0x50 then 0x0000FF00                                       -- AC: BWR GFMUL
  else if op = 0x25 then 0x000000FF                                                   -- AB: SRD
  else if op = 0x24 then 0x00000000                                                   -- ABC: SWR
  else if op = 0x61 ∨ op = 0x63 then 0x00FF0000                                       -- H: XKPUSH XSTEP
  else 0x00FFFFFF                                                                     -- N: all the others

/-- Check 1: the opcode is one of the thirty (rule R74). -/
def wordOpcodeLegal (w : Word) : Bool := !illegalOpcode (w.toNat / 2 ^ 24)

/-- Check 2: no reserved bit of the format is 1 (rules R72, R77). -/
def wordReservedClear (w : Word) : Bool := w &&& reservedBits (w.toNat / 2 ^ 24) == 0

/-- A word that is a command (rule R75). -/
def wellFormedWord (w : Word) : Bool := wordOpcodeLegal w && wordReservedClear w

end Sys2Proof
end

