-- ==== Sys2Proof/Decode.lean ====
section
/-! DEFINITION. The decoder and the encoder, from rules R71 to R78 (30_encoding.md).

Decoding is total: every word is one command, an illegal opcode, or a reserved-field violation (rule R75).
There is no instruction fetch and no byte order of a command word (rules R55, R56): a word comes whole. -/

namespace Sys2Proof

/-! ## Fields (rule R71) -/

/-- `op = w[31:24]`. -/
def opField (w : Word) : Byte := w.extractLsb' 24 8
/-- `a = w[23:16]`. -/
def aField (w : Word) : Byte := w.extractLsb' 16 8
/-- `b = w[15:8]`. -/
def bField (w : Word) : Byte := w.extractLsb' 8 8
/-- `c = w[7:0]`. -/
def cField (w : Word) : Byte := w.extractLsb' 0 8
/-- `imm16 = w[15:0]`, that is `(b << 8) | c`. -/
def imm16Field (w : Word) : Char16 := w.extractLsb' 0 16

/-! ## Formats (rule R72) -/

/-- The mask of a format: a 1 in every fixed bit (opcode and reserved bits). -/
def Format.mask : Format → Word
  | .N   => 0xFFFFFFFF
  | .A   => 0xFF00FFFF
  | .C   => 0xFFFFFF00
  | .AC  => 0xFF00FF00
  | .AB  => 0xFF0000FF
  | .ABC => 0xFF000000
  | .H   => 0xFFFF0000

/-! ## The opcode map (rule R74) -/

/-- One row of the opcode map: opcode, mnemonic, format, and the command the operand fields make. -/
structure OpcodeRow where
  op       : Byte
  mnemonic : String
  format   : Format
  make     : Word → Instr

/-- Families 0 to 2: control, key, block and state access. -/
def rowsControlKeyAccess : List OpcodeRow :=
  [ ⟨0x00, "NOP",     .N,   fun _ => .nop⟩,
    ⟨0x01, "SRST",    .N,   fun _ => .srst⟩,
    ⟨0x02, "CSRR",    .A,   fun w => .csrr (aField w)⟩,
    ⟨0x10, "KCLR",    .N,   fun _ => .kclr⟩,
    ⟨0x11, "KPUSH",   .C,   fun w => .kpush (cField w)⟩,
    ⟨0x12, "KEXP",    .N,   fun _ => .kexp⟩,
    ⟨0x13, "RKRD",    .A,   fun w => .rkrd (aField w)⟩,
    ⟨0x20, "BWR",     .AC,  fun w => .bwr (aField w) (cField w)⟩,
    ⟨0x21, "BRD",     .A,   fun w => .brd (aField w)⟩,
    ⟨0x22, "TOST",    .N,   fun _ => .tost⟩,
    ⟨0x23, "FRST",    .N,   fun _ => .frst⟩,
    ⟨0x24, "SWR",     .ABC, fun w => .swr (aField w) (bField w) (cField w)⟩,
    ⟨0x25, "SRD",     .AB,  fun w => .srd (aField w) (bField w)⟩ ]

/-- Families 3 to 6: round steps, pipelines, primitives, XOR. -/
def rowsStepsPrimitivesXor : List OpcodeRow :=
  [ ⟨0x30, "SUBB",    .N,   fun _ => .subb⟩,
    ⟨0x31, "ISUBB",   .N,   fun _ => .isubb⟩,
    ⟨0x32, "SHR",     .N,   fun _ => .shr⟩,
    ⟨0x33, "ISHR",    .N,   fun _ => .ishr⟩,
    ⟨0x34, "MIXC",    .N,   fun _ => .mixc⟩,
    ⟨0x35, "IMIXC",   .N,   fun _ => .imixc⟩,
    ⟨0x36, "ARK",     .A,   fun w => .ark (aField w)⟩,
    ⟨0x40, "ENC",     .N,   fun _ => .enc⟩,
    ⟨0x41, "DEC",     .N,   fun _ => .dec⟩,
    ⟨0x50, "GFMUL",   .AC,  fun w => .gfmul (aField w) (cField w)⟩,
    ⟨0x51, "SBOX",    .C,   fun w => .sbox (cField w)⟩,
    ⟨0x52, "ISBOX",   .C,   fun w => .isbox (cField w)⟩,
    ⟨0x53, "RCON",    .A,   fun w => .rcon (aField w)⟩,
    ⟨0x60, "XKCLR",   .N,   fun _ => .xkclr⟩,
    ⟨0x61, "XKPUSH",  .H,   fun w => .xkpush (imm16Field w)⟩,
    ⟨0x62, "XRST",    .N,   fun _ => .xrst⟩,
    ⟨0x63, "XSTEP",   .H,   fun w => .xstep (imm16Field w)⟩ ]

/-- The thirty rows of rule R74. -/
def opcodeMap : List OpcodeRow := rowsControlKeyAccess ++ rowsStepsPrimitivesXor

/-- The row with a given opcode, if there is one. -/
def findRow (op : Byte) : Option OpcodeRow := opcodeMap.find? (fun r => r.op == op)

/-- `op << 24`: the fixed bits of a row's words (rule R72, "match"). -/
def matchBits (op : Byte) : Word := op ++ (0 : BitVec 24)

/-- Decoding, rule R75. -/
def decode (w : Word) : Except DecodeError Instr :=
  match findRow (opField w) with
  | none => .error .illegalOpcode
  | some r => if w &&& r.format.mask = matchBits r.op then .ok (r.make w) else .error .reservedBit

/-! ## The encoder (rules R71, R72, R80) -/

/-- `word = (op << 24) | (a << 16) | (b << 8) | c` (rule R80). -/
def packFields (op a b c : Byte) : Word := op ++ a ++ b ++ c

/-- The same with `(b << 8) | c = imm16` (format H). -/
def packImm (op : Byte) (imm16 : Char16) : Word := op ++ (0 : Byte) ++ imm16

/-- The word of a command: unused fields 0 (rule R80). -/
def encode : Instr → Word
  | .nop => packFields 0x00 0 0 0
  | .srst => packFields 0x01 0 0 0
  | .csrr a => packFields 0x02 a 0 0
  | .kclr => packFields 0x10 0 0 0
  | .kpush c => packFields 0x11 0 0 c
  | .kexp => packFields 0x12 0 0 0
  | .rkrd a => packFields 0x13 a 0 0
  | .bwr a c => packFields 0x20 a 0 c
  | .brd a => packFields 0x21 a 0 0
  | .tost => packFields 0x22 0 0 0
  | .frst => packFields 0x23 0 0 0
  | .swr a b c => packFields 0x24 a b c
  | .srd a b => packFields 0x25 a b 0
  | .subb => packFields 0x30 0 0 0
  | .isubb => packFields 0x31 0 0 0
  | .shr => packFields 0x32 0 0 0
  | .ishr => packFields 0x33 0 0 0
  | .mixc => packFields 0x34 0 0 0
  | .imixc => packFields 0x35 0 0 0
  | .ark a => packFields 0x36 a 0 0
  | .enc => packFields 0x40 0 0 0
  | .dec => packFields 0x41 0 0 0
  | .gfmul a c => packFields 0x50 a 0 c
  | .sbox c => packFields 0x51 0 0 c
  | .isbox c => packFields 0x52 0 0 c
  | .rcon a => packFields 0x53 a 0 0
  | .xkclr => packFields 0x60 0 0 0
  | .xkpush imm16 => packImm 0x61 imm16
  | .xrst => packFields 0x62 0 0 0
  | .xstep imm16 => packImm 0x63 imm16

/-- The host's question: what the decoder reads from a table word of `nbits` bits whose number is `w`; every bit above `nbits`
is 0.  A command is one 32-bit word (rule R71), numbered with bit 0 the least significant (rule R11). -/
def decodeTableWord (nbits w : Nat) : Option Instr :=
  match decode (BitVec.ofNat 32 (w % 2 ^ nbits)) with
  | .ok i => some i
  | .error _ => none

end Sys2Proof
end

