-- ==== Sys2Proof/Config.lean ====
section
/-! DEFINITION. What an implementation fixes, and the two points the spec leaves OPEN.

Rule R9's table: `ENGINE_ID`, `KLEN_SAT`, `XKMAX` stand here with the value this hardware takes.
The sizes that shape a store (`KEYBUF_BYTES = 32`, `XW = 16`, `XKMAX = 256`, and rule R8's 16, 4, 4, 60) are
also written as numerals in the types of `Machine.State`, so that no cast is needed.
`CMD_BITS` and `RSP_BITS` are the width of `Word`. -/

namespace Sys2Proof.Config

/-- `ENGINE_ID`, the value of CSR 4 (rules R9, R37). -/
def engineId : Word := 0x41455307

/-- `KLEN_SAT`, where the key length counter saturates (rules R9, R24). -/
abbrev klenSat : Nat := 33

/-- `XKMAX`, the capacity of the XOR key store in characters (rules R9, R28). -/
abbrev xkMax : Nat := 256

/-- `PLATFORM_BASE`, where a platform maps the command port: OPEN, read by no rule (rules R9, R61; D22).
It has no body: nothing in the model depends on it (log entry 9). -/
opaque platformBase : Nat

/-- What the host does with decrypted bytes that are not valid UTF-8 (rule R201, D35): it may replace them by some text, fail,
or hand the bytes over. -/
inductive Utf8Outcome where
  | replaced (text : List Char)
  | failed
  | rawBytes (bytes : List Byte)
  deriving DecidableEq, Repr, Inhabited

/-- `utf8_decode_policy`: OPEN (rule R201, D35, U13), so it has no body.  Read only by the host contract, never by the engine
(log entry 9). -/
opaque utf8DecodePolicy : List Byte → Utf8Outcome

end Sys2Proof.Config
end

