-- ==== Sys2Proof/Machine/State.lean ====
section
/-! DEFINITION. The engine's state as plain data (10_state.md), its fault codes, the host's inputs, the response port, and reset.

The engine has no program counter, no memory interface and no stored program (rules R29, R50, R51): what rule R20 lists is all its
state.  Each store is its own index space, so each is a `Vector` of its own size; there is no list of memory cells.
The last two fields are the command and response ports of rule R70, which rule R41 keeps apart from the state: they are here
because a step of the model is a function of one state. -/

namespace Sys2Proof.Machine

/-- The state matrix, indexed row first, column second (rule R22). -/
abbrev Matrix := Vector (Vector Byte 4) 4

/-- A block: sixteen bytes, byte 0 the first in input order (rules R21, R52). -/
abbrev Block := Vector Byte 16

/-- The six causes of a command fault (rule R231).  A fault is an event the engine takes, not an end of the run:
it leads to a next state (rule R236), so none of these is a `Fault` of the model. -/
inductive FaultCode where
  /-- ERR_ILLOP: the opcode is not in the opcode map. -/
  | illop
  /-- ERR_RSVD: a reserved bit of the format is 1. -/
  | rsvd
  /-- ERR_INDEX: an index operand is outside its store. -/
  | index
  /-- ERR_NOKEY: round keys are needed while `RKV = 0`. -/
  | noKey
  /-- ERR_XNOKEY: `XSTEP` with an empty XOR key. -/
  | xNoKey
  /-- ERR_XKFULL: `XKPUSH` with the XOR key store full. -/
  | xkFull
  deriving DecidableEq, Repr

/-- The response of one command: `rsp_ok` and `rsp_data` (rules R17, R79). -/
structure Response where
  ok   : Bool
  data : Word
  deriving DecidableEq, Repr

/-- What the host drives on the input ports at one moment (rule R70): the reset input `rst`, and the command word where
`cmd_valid` is 1. -/
structure PortInput where
  rst : Bool
  cmd : Option Word
  deriving DecidableEq, Repr

/-- What the engine finds on its input ports when it is ready for a command (rules R70, R250). -/
inductive Taken where
  /-- No command is presented: the engine is idle (rule R249). -/
  | idle
  /-- `rst` is asserted: no command is taken (rule R250). -/
  | reset
  /-- This command word is taken. -/
  | command (w : Word)
  deriving DecidableEq, Repr

/-- The engine's state, rule R20, then its ports, rule R70. -/
structure State where
  /-- `BLK[0..15]`, the block buffer (rule R21). -/
  blk    : Vector Byte 16
  /-- `ST[0..3][0..3]`, the state matrix (rule R22). -/
  st     : Vector (Vector Byte 4) 4
  /-- `KEYBUF[0..31]`, the first 32 bytes of the raw key (rule R23). -/
  keybuf : Vector Byte 32
  /-- `KLEN`, 6 bits, the number of key bytes pushed, saturated at 33 (rule R24). -/
  klen   : BitVec 6
  /-- `RK[0..59]`, the round-key words (rule R25). -/
  rk     : Vector Word 60
  /-- `NR`, 4 bits, the round count (rule R26). -/
  nr     : BitVec 4
  /-- `NK`, 4 bits, the key word count (rule R26). -/
  nk     : BitVec 4
  /-- `RKV`, 1 bit: RK, NR, NK are valid for the key in KEYBUF (rule R27). -/
  rkv    : Bool
  /-- `XKEY[0..XKMAX-1]`, the XOR key characters (rule R28). -/
  xkey   : Vector Char16 256
  /-- `XKLEN`, 0 to XKMAX (rule R28). -/
  xklen  : Fin 257
  /-- `XPOS`, 0 to XKMAX-1 (rule R28). -/
  xpos   : Fin 256
  /-- `ERR`, 8 bits, 0 when no fault has happened since reset (rule R30). -/
  err    : BitVec 8
  /-- `FCMD`, the command word that faulted (rule R31). -/
  fcmd   : Word
  /-- The host's side of the input ports, next moment first: what it will present (rules R20, R70).  DESIGN CHOICE, log entry 1. -/
  inputs : List PortInput
  /-- The response port: present (`rsp_valid = 1`) exactly when the last step took a command (rule R70).  DESIGN CHOICE, log
  entry 2. -/
  rsp    : Option Response
  deriving DecidableEq, Repr

/-- Why the model could stop with a fault: never.  Every command fault of this engine is a next state (rules R230, R236, R237), every
command ends (rule R60), and the spec leaves no instruction without an effect, so the type has no constructor (log entry 4). -/
inductive Fault where
  deriving DecidableEq, Repr

/-- Why the model could refuse a step. -/
inductive Refusal where
  /-- An instruction with no meaning yet; only an arm of `exec` may raise it, and none does.  It would be safe. -/
  | notModelled (mnemonic : String)
  deriving DecidableEq, Repr

/-- The outcome of one step. -/
abbrev Result := Host.Outcome State Fault Refusal

/-- The state after reset, rule R42: every cell of every store and every scalar is 0; no input is presented yet and no response
is present (rule R250). -/
def State.reset : State where
  blk    := Vector.replicate 16 0
  st     := Vector.replicate 4 (Vector.replicate 4 0)
  keybuf := Vector.replicate 32 0
  klen   := 0
  rk     := Vector.replicate 60 0
  nr     := 0
  nk     := 0
  rkv    := false
  xkey   := Vector.replicate 256 0
  xklen  := 0
  xpos   := 0
  err    := 0
  fcmd   := 0
  inputs := []
  rsp    := none

end Sys2Proof.Machine
end

