-- ==== Sys2Proof/Machine/Ops.lean ====
section
/-! DEFINITION. The operations every meaning is built from: byte order, cells, taking a command, responding, faulting, refusing, resetting.

Taking an exception is `State.faultEntry` (rule R236); there is no return from one but reset (rule R238), `State.resetEngine`. -/

namespace Sys2Proof.Machine

/-! ## Byte order in a word (rule R13) -/

/-- `pack(b0, b1, b2, b3)`: big-endian, `b0` in bits [31:24]. -/
def pack (b0 b1 b2 b3 : Byte) : Word := b0 ++ b1 ++ b2 ++ b3

/-- `byte_k(w) = (w >> (24 - 8*k)) & 0xFF`: byte 0 is the most significant. -/
def byteOf (k : Fin 4) (w : Word) : Byte := w.extractLsb' (24 - 8 * k.val) 8

/-- `zext_32` of a byte (rule R11). -/
def zext8 (b : Byte) : Word := b.zeroExtend 32

/-- `zext_32` of an XOR character (rules R11, R195). -/
def zext16 (h : Char16) : Word := h.zeroExtend 32

/-! ## Cells of the stores (rule R14) -/

/-- The cell in row `r`, column `c` of a matrix. -/
def Matrix.cell (m : Matrix) (r c : Fin 4) : Byte := m[r][c]

/-- The matrix with cell `(r, c)` given by `f r c`: all cells are computed before any is written (rule R14). -/
def Matrix.build (f : Fin 4 → Fin 4 → Byte) : Matrix := Vector.ofFn fun r => Vector.ofFn fun c => f r c

/-- `BLK[i] <- v`: the other cells keep their values. -/
def State.setBlk (s : State) (i : Fin 16) (v : Byte) : State := { s with blk := s.blk.set i v }

/-- `ST[r][c] <- v`: the other cells keep their values. -/
def State.setSt (s : State) (r c : Fin 4) (v : Byte) : State := { s with st := s.st.set r (s.st[r].set c v) }

/-! ## Fault codes (rule R231) -/

/-- The value a fault latches in `ERR`. -/
def FaultCode.code : FaultCode → BitVec 8
  | .illop  => 0x01
  | .rsvd   => 0x02
  | .index  => 0x03
  | .noKey  => 0x04
  | .xNoKey => 0x05
  | .xkFull => 0x06

/-- The fault a word that is no command raises (rules R76, R77). -/
def faultOfDecodeError : DecodeError → FaultCode
  | .illegalOpcode => .illop
  | .reservedBit   => .rsvd

/-! ## Responding, faulting, refusing, resetting -/

/-- A command executed: its response is `(1, data)` (rules R17, R79). -/
def State.complete (s : State) (data : Word) : State := { s with rsp := some ⟨true, data⟩ }

/-- Fault entry, rule R236: `ERR` takes the code, `FCMD` the command word, the response is `(0, code)`, and nothing else
changes. -/
def State.faultEntry (s : State) (code : FaultCode) (w : Word) : State :=
  { s with err := code.code, fcmd := w, rsp := some ⟨false, zext8 code.code⟩ }

/-- A word refused because the engine is faulted, rule R237: the response is `(0, ERR)` and no state changes. -/
def State.refuse (s : State) : State := { s with rsp := some ⟨false, zext8 s.err⟩ }

/-- Reset, rule R250: every piece of state takes its reset value (rule R42).  What the host has yet to present is not the engine's
to change. -/
def State.resetEngine (s : State) : State := { State.reset with inputs := s.inputs }

/-! ## A command's own rule (rule R90) -/

/-- What a command's own rule gives: the state with its writes and its response data, or the fault it raises. -/
abbrev Rule := Except FaultCode (State × Word)

/-- A rule that ends without `respond`: response data 0 (rule R17). -/
def done (s : State) : Rule := .ok (s, 0)

/-- `respond(v)` (rule R17). -/
def respond (s : State) (v : Word) : Rule := .ok (s, v)

/-- Running a command in any state, rule R90: in the faulted state it is refused; otherwise its own rule applies, and a fault
of that rule is taken with none of its writes (rules R16, R236). -/
def command (i : Instr) (s : State) (rule : Rule) : Result :=
  if s.err ≠ 0 then .next s.refuse
  else
    match rule with
    | .ok (s', v) => .next (s'.complete v)
    | .error code => .next (s.faultEntry code (encode i))

/-- A word that is no command, rules R76, R77, R90, R237: refused in the faulted state, otherwise a fault. -/
def undecodable (e : DecodeError) (w : Word) (s : State) : Result :=
  if s.err ≠ 0 then .next s.refuse else .next (s.faultEntry (faultOfDecodeError e) w)

/-! ## The ports (rule R70) -/

/-- The engine looks at its input ports once: `rst` wins over a presented command, which is then not taken (rule R250).  No
response is present until a command has been taken (log entries 1 to 3). -/
def takeInput (s : State) : Taken × State :=
  match s.inputs with
  | [] => (.idle, { s with rsp := none })
  | p :: rest =>
    ( if p.rst then .reset else match p.cmd with
        | some w => .command w
        | none => .idle,
      { s with inputs := rest, rsp := none } )

/-- The output port `cmd_ready` while the host drives `p`: no command is taken while `rst` is asserted (rules R70, R250). -/
def cmdReady (p : PortInput) : Bool := !p.rst

/-- The output port `err`: the `ERR` state, continuously (rules R30, R70). -/
def State.errPort (s : State) : BitVec 8 := s.err

/-- The output port `rsp_valid` (rule R70). -/
def State.rspValid (s : State) : Bool := s.rsp.isSome

/-- Present one command word next (rule R70): it is the next thing the engine takes. -/
def State.present (s : State) (w : Word) : State := { s with inputs := ⟨false, some w⟩ :: s.inputs }

end Sys2Proof.Machine
end

