-- ==== Sys2Proof/Machine/Operands.lean ====
section
/-! DEFINITION. Operand forms (rules R62, R71, R73, R104).

There is one addressing mode: the cell index is the operand field itself, unsigned, with no base, offset, scaling or wrap.
A data operand (`c`, `imm16`, and `a` of `GFMUL`) is used as it stands. -/

namespace Sys2Proof.Machine

/-- An index operand against a store of `n` cells: inside it names that cell, outside it raises `ERR_INDEX` (rule R62). -/
def checkIndex (n : Nat) (a : Byte) : Except FaultCode (Fin n) :=
  if h : a.toNat < n then .ok ⟨a.toNat, h⟩ else .error .index

/-- An index operand against the part of a store that exists now, `a < limit` (rule R235 item 6): past it, `ERR_INDEX`. -/
def checkLimit (limit : Nat) (a : Byte) : Except FaultCode Unit :=
  if a.toNat < limit then .ok () else .error .index

end Sys2Proof.Machine
end

