-- ==== Sys2Proof/Machine/BlockAccess.lean ====
section
/-! DEFINITION. Family 2, the access commands of BLK and ST: BWR, BRD, SWR, SRD (40_control_access.md). -/

namespace Sys2Proof.Machine

/-- BWR a, c, rule R99: `BLK[a] <- c`. -/
def execBwr (a c : Byte) (s : State) : Result :=
  command (.bwr a c) s do
    let i ← checkIndex 16 a
    done (s.setBlk i c)

/-- BRD a, rule R100: respond with `BLK[a]`. -/
def execBrd (a : Byte) (s : State) : Result :=
  command (.brd a) s do
    let i ← checkIndex 16 a
    respond s (zext8 s.blk[i])

/-- SWR a, b, c, rule R101: `ST[a][b] <- c`, `a` the row and `b` the column. -/
def execSwr (a b c : Byte) (s : State) : Result :=
  command (.swr a b c) s do
    let row ← checkIndex 4 a
    let col ← checkIndex 4 b
    done (s.setSt row col c)

/-- SRD a, b, rule R102: respond with `ST[a][b]`. -/
def execSrd (a b : Byte) (s : State) : Result :=
  command (.srd a b) s do
    let row ← checkIndex 4 a
    let col ← checkIndex 4 b
    respond s (zext8 (Matrix.cell s.st row col))

end Sys2Proof.Machine
end

