-- ==== Sys2Proof/Machine/BlockCodec.lean ====
section
/-! DEFINITION. BlockCodec: the column-major mapping between a block and the state matrix, and TOST, FRST (43_blockcodec.md). -/

namespace Sys2Proof.Machine

/-- `toState(b)`, rule R130: `s[r][c] = b[4*c + r]`. -/
def toState (b : Block) : Matrix :=
  Matrix.build fun r c => b[4 * c.val + r.val]

/-- `fromState(s)`, rule R131: `b[i] = s[i mod 4][i div 4]`. -/
def fromState (m : Matrix) : Block :=
  Vector.ofFn fun i => Matrix.cell m ⟨i.val % 4, by omega⟩ ⟨i.val / 4, by omega⟩

/-- TOST, rule R133: `ST <- toState(BLK)`. -/
def execTost (s : State) : Result := command .tost s (done { s with st := toState s.blk })

/-- FRST, rule R134: `BLK <- fromState(ST)`. -/
def execFrst (s : State) : Result := command .frst s (done { s with blk := fromState s.st })

end Sys2Proof.Machine
end

