-- ==== Sys2Proof/Machine/Flags.lean ====
section
/-! DEFINITION. Flags and the control and status registers.

There are no condition codes (rule R30): the one-bit status is `RKV` (rule R27), and `ERR` is the fault code.
The five CSRs are read-only views of the state (rule R32). -/

namespace Sys2Proof.Machine

/-- The check of `RKV` that `RKRD`, `ARK`, `ENC`, `DEC` make (rules R27, R235 item 5). -/
def requireKey (s : State) : Except FaultCode Unit :=
  if s.rkv then .ok () else .error .noKey

/-- CSR 0 `STATUS` (rule R33): `[7:0] = ERR`, `[8] = RKV`, `[31:9] = 0`. -/
def csrStatus (s : State) : Word := (0 : BitVec 23) ++ BitVec.ofBool s.rkv ++ s.err

/-- CSR 1 `KINFO` (rule R34): `[5:0] = KLEN`, `[11:8] = NK`, `[19:16] = NR`, the others 0; `NK`, `NR` as held even when
`RKV = 0`. -/
def csrKinfo (s : State) : Word := (0 : BitVec 12) ++ s.nr ++ (0 : BitVec 4) ++ s.nk ++ (0 : BitVec 2) ++ s.klen

/-- CSR 2 `XINFO` (rule R35): `[15:0] = XKLEN`, `[31:16] = XPOS`. -/
def csrXinfo (s : State) : Word := BitVec.ofNat 16 s.xpos.val ++ BitVec.ofNat 16 s.xklen.val

/-- CSR `n` (rules R32 to R37). -/
def csr (s : State) : Fin 5 → Word
  | 0 => csrStatus s
  | 1 => csrKinfo s
  | 2 => csrXinfo s
  | 3 => s.fcmd
  | 4 => Config.engineId

end Sys2Proof.Machine
end

