-- ==== Sys2Proof/Machine/Control.lean ====
section
/-! DEFINITION. Family 0, control: NOP, SRST, CSRR (40_control_access.md). -/

namespace Sys2Proof.Machine

/-- NOP, rule R91: nothing. -/
def execNop (s : State) : Result := command .nop s (done s)

/-- SRST, rule R93: every piece of state takes its reset value; it executes in the faulted state too. -/
def execSrst (s : State) : Result := .next (s.resetEngine.complete 0)

/-- CSRR a, rules R92, R237: respond with CSR `a`; with `a <= 4` it executes in the faulted state too, otherwise it is a command
like any other and raises `ERR_INDEX`. -/
def execCsrr (a : Byte) (s : State) : Result :=
  match checkIndex 5 a with
  | .ok n => .next (s.complete (csr s n))
  | .error e => command (.csrr a) s (.error e)

end Sys2Proof.Machine
end

