-- ==== Sys2Proof/Machine/GaloisField8.lean ====
section
/-! DEFINITION. GaloisField8: multiplication in GF(2^8) modulo x^8 + x^4 + x^3 + x + 1, and GFMUL (41_gf8.md). -/

namespace Sys2Proof.Machine

/-- `xtime(a)`, rule R111: multiplication by x; when bit 7 falls out, 0x1B is XORed in. -/
def xtime (a : Byte) : Byte := (a <<< 1) ^^^ (if a.getLsbD 7 then 0x1B else 0x00)

/-- The loop of rule R112, `n` more times, with the running `a`, `b`, `p`. -/
def gfmulLoop : Nat → Byte → Byte → Byte → Byte
  | 0, _, _, p => p
  | n + 1, a, b, p => gfmulLoop n (xtime a) (b >>> 1) (if b.getLsbD 0 then p ^^^ a else p)

/-- `gfmul(a, b)`, the peasant multiplication of rule R112: eight times round the loop from `p = 0`. -/
def gfmul (a b : Byte) : Byte := gfmulLoop 8 a b 0

/-- GFMUL a, c, rule R114: respond with the product; both operands are data. -/
def execGfmul (a c : Byte) (s : State) : Result :=
  command (.gfmul a c) s (respond s (zext8 (gfmul a c)))

end Sys2Proof.Machine
end

