-- ==== Sys2Proof/Machine/KeyAccess.lean ====
section
/-! DEFINITION. Family 1, the key store's access commands: KCLR, KPUSH, RKRD (40_control_access.md). -/

namespace Sys2Proof.Machine

/-- KCLR, rule R94: clear KEYBUF and KLEN, `RKV <- 0`; RK, NR, NK are left as they are. -/
def execKclr (s : State) : Result :=
  command .kclr s (done { s with keybuf := Vector.replicate 32 0, klen := 0, rkv := false })

/-- `if KLEN < 32: KEYBUF[KLEN] <- c` (rule R95): later bytes are dropped. -/
def storeKeyByte (keybuf : Vector Byte 32) (klen : BitVec 6) (c : Byte) : Vector Byte 32 :=
  if h : klen.toNat < 32 then keybuf.set klen.toNat c else keybuf

/-- `min(KLEN + 1, 33)` on natural numbers (rules R10, R24, R95). -/
def nextKlen (klen : BitVec 6) : BitVec 6 := BitVec.ofNat 6 (min (klen.toNat + 1) Config.klenSat)

/-- KPUSH c, rule R95: append one key byte; `RKV <- 0` always. -/
def execKpush (c : Byte) (s : State) : Result :=
  command (.kpush c) s
    (done { s with keybuf := storeKeyByte s.keybuf s.klen c, klen := nextKlen s.klen, rkv := false })

/-- How many round-key words the current schedule has: `4*(NR+1)` (rules R25, R98). -/
def validWords (s : State) : Nat := 4 * (s.nr.toNat + 1)

/-- RKRD a, rule R98: the fixed size first, then `RKV`, then the current schedule's size. -/
def execRkrd (a : Byte) (s : State) : Result :=
  command (.rkrd a) s do
    let i ← checkIndex 60 a
    requireKey s
    checkLimit (validWords s) a
    respond s s.rk[i]

end Sys2Proof.Machine
end

