-- ==== Sys2Proof/Machine/KeySchedule.lean ====
section
/-! DEFINITION. KeySchedule: key coercion, round selection, expansion, and KEXP (44_keyschedule.md). -/

namespace Sys2Proof.Machine

/-- Whether a key length is one of the three standard ones (rule R140). -/
def standardLength (len : Nat) : Bool := len == 16 || len == 24 || len == 32

/-- The effective key of a raw key, rule R140: a standard key as it is, any other cut or zero-filled to 16 bytes, silently. -/
def effectiveKey (key : List Byte) : List Byte :=
  if standardLength key.length then key
  else key.take 16 ++ List.replicate (16 - min key.length 16) 0

/-- `effkey(KEYBUF, KLEN)`, rule R142: cells at or past KLEN count as 0 whatever they hold. -/
def storedEffectiveKey (keybuf : Vector Byte 32) (klen : Nat) : List Byte :=
  if standardLength klen then keybuf.toList.take klen
  else keybuf.toList.take (min klen 16) ++ List.replicate (16 - min klen 16) 0

/-- Rounds of an effective key of `len` bytes, rule R141. -/
def roundsOf (len : Nat) : Nat := if len = 24 then 12 else if len = 32 then 14 else 10

/-- `rotWord(w) = rotl32(w, 8)` (rule R145). -/
def rotWord (w : Word) : Word := w.rotateLeft 8

/-- `subWord(w)`: each byte through the forward S-box, in its place (rule R145). -/
def subWord (w : Word) : Word :=
  pack (sbox (byteOf 0 w)) (sbox (byteOf 1 w)) (sbox (byteOf 2 w)) (sbox (byteOf 3 w))

/-- `RCON[j] << 24`: the table byte in bits [31:24] (rules R122, R146).  `j` is at most 9 (rule R149). -/
def rconWord (j : Nat) : Word := pack (rconTable.toList.getD j 0) 0 0 0

/-- The first words, rule R144: `w[i] = pack(ek[4i], ek[4i+1], ek[4i+2], ek[4i+3])` for `i < NK`. -/
def keyWords (ek : List Byte) (nk : Nat) : List Word :=
  (List.range nk).map fun i =>
    pack (ek.getD (4 * i) 0) (ek.getD (4 * i + 1) 0) (ek.getD (4 * i + 2) 0) (ek.getD (4 * i + 3) 0)

/-- `temp` for word index `i` from `w[i-1]`, rule R146's three branches. -/
def scheduleTemp (nk i : Nat) (prev : Word) : Word :=
  if i % nk = 0 then subWord (rotWord prev) ^^^ rconWord (i / nk - 1)
  else if nk > 6 ∧ i % nk = 4 then subWord prev
  else prev

/-- `w[i] = w[i-NK] XOR temp`, for `i` the number of words there are (rule R146). -/
def nextWord (nk : Nat) (w : List Word) : Word :=
  w.getD (w.length - nk) 0 ^^^ scheduleTemp nk w.length (w.getD (w.length - 1) 0)

/-- Append `n` more words in increasing order (rule R146's second loop). -/
def extendWords (nk : Nat) : Nat → List Word → List Word
  | 0, w => w
  | n + 1, w => extendWords nk n (w ++ [nextWord nk w])

/-- The document's RoundKeySet with its sizes (rules R25, R26, R146). -/
structure RoundKeySet where
  words : List Word
  nr    : Nat
  nk    : Nat
  deriving DecidableEq, Repr

/-- The expansion of an effective key, rule R146 from its second line on. -/
def expandEffective (ek : List Byte) : RoundKeySet :=
  let nr := roundsOf ek.length
  let nk := ek.length / 4
  ⟨extendWords nk (4 * (nr + 1) - nk) (keyWords ek nk), nr, nk⟩

/-- `expand(key)` of a raw key, rule R146. -/
def expand (key : List Byte) : RoundKeySet := expandEffective (effectiveKey key)

/-- `for i in 0 .. n-1: RK[i] <- w[i]`: words past the last one keep their old contents (rules R25, R150). -/
def storeWords (rk : Vector Word 60) (w : List Word) : Vector Word 60 :=
  Vector.ofFn fun i => w.getD i.val rk[i]

/-- KEXP, rule R150: RK, NR, NK take the expansion of the effective key, `RKV <- 1`. -/
def execKexp (s : State) : Result :=
  let ks := expand (storedEffectiveKey s.keybuf s.klen.toNat)
  command .kexp s
    (done { s with rk := storeWords s.rk ks.words, nr := BitVec.ofNat 4 ks.nr, nk := BitVec.ofNat 4 ks.nk, rkv := true })

end Sys2Proof.Machine
end

