-- ==== Sys2Proof/Machine/RoundSteps.lean ====
section
/-! DEFINITION. The round steps as functions of a state matrix, and SUBB ISUBB SHR ISHR MIXC IMIXC ARK (45_round_steps.md). -/

namespace Sys2Proof.Machine

/-- `subBytes(s)`, rule R160. -/
def subBytes (m : Matrix) : Matrix := Matrix.build fun r c => sbox (m.cell r c)

/-- `invSubBytes(s)`, rule R161. -/
def invSubBytes (m : Matrix) : Matrix := Matrix.build fun r c => invSbox (m.cell r c)

/-- `shiftRows(s)`, rule R162: `out[r][c] = s[r][(c + r) mod 4]`; `Fin 4` adds modulo 4. -/
def shiftRows (m : Matrix) : Matrix := Matrix.build fun r c => m.cell r (c + r)

/-- `invShiftRows(s)`, rule R163: `out[r][c] = s[r][(c - r) mod 4]`. -/
def invShiftRows (m : Matrix) : Matrix := Matrix.build fun r c => m.cell r (c - r)

/-- The matrix with a given first row whose every other row is the row above rotated one place to the right: cell `(r, k)` is
entry `(k - r) mod 4` of the first row (rules R164, R165). -/
def rotatedRows (first : Vector Byte 4) : Matrix := Matrix.build fun r k => first[k - r]

/-- The matrix `M` of rule R164: `M[r][k] = (2, 3, 1, 1)[(k - r) mod 4]`. -/
def mixMatrix : Matrix := rotatedRows #v[2, 3, 1, 1]

/-- The matrix `IM` of rule R165: `IM[r][k] = (14, 11, 13, 9)[(k - r) mod 4]`. -/
def invMixMatrix : Matrix := rotatedRows #v[14, 11, 13, 9]

/-- Each column replaced by its product with a coefficient matrix: products by `gfmul`, sums by XOR (rules R164, R165). -/
def mulColumns (coeff m : Matrix) : Matrix :=
  Matrix.build fun r c =>
    gfmul (coeff.cell r 0) (m.cell 0 c) ^^^ gfmul (coeff.cell r 1) (m.cell 1 c) ^^^
      gfmul (coeff.cell r 2) (m.cell 2 c) ^^^ gfmul (coeff.cell r 3) (m.cell 3 c)

/-- `mixColumns(s)`, rule R164. -/
def mixColumns (m : Matrix) : Matrix := mulColumns mixMatrix m

/-- `invMixColumns(s)`, rule R165. -/
def invMixColumns (m : Matrix) : Matrix := mulColumns invMixMatrix m

/-- `addRoundKey(s, k0, k1, k2, k3)`, rule R170: `out[r][c] = s[r][c] XOR byte_r(k_c)`. -/
def addRoundKey (m : Matrix) (k : Vector Word 4) : Matrix := Matrix.build fun r c => m.cell r c ^^^ byteOf r k[c]

/-- Round key `k`: the words `w[4k], w[4k+1], w[4k+2], w[4k+3]` (rule R147).  For `k <= 14` all four are cells of RK. -/
def roundKey (rk : Vector Word 60) (k : Nat) : Vector Word 4 :=
  Vector.ofFn fun j => rk.toList.getD (4 * k + j.val) 0

/-- `addRoundKey_k(s)` with the engine's store (rule R170). -/
def arkWith (rk : Vector Word 60) (k : Nat) (m : Matrix) : Matrix := addRoundKey m (roundKey rk k)

/-- SUBB, rule R171. -/
def execSubb (s : State) : Result := command .subb s (done { s with st := subBytes s.st })

/-- ISUBB, rule R172. -/
def execIsubb (s : State) : Result := command .isubb s (done { s with st := invSubBytes s.st })

/-- SHR, rule R173. -/
def execShr (s : State) : Result := command .shr s (done { s with st := shiftRows s.st })

/-- ISHR, rule R174. -/
def execIshr (s : State) : Result := command .ishr s (done { s with st := invShiftRows s.st })

/-- MIXC, rule R175. -/
def execMixc (s : State) : Result := command .mixc s (done { s with st := mixColumns s.st })

/-- IMIXC, rule R176. -/
def execImixc (s : State) : Result := command .imixc s (done { s with st := invMixColumns s.st })

/-- ARK a, rule R177: the fixed bound 14 first, then `RKV`, then `NR`. -/
def execArk (a : Byte) (s : State) : Result :=
  command (.ark a) s do
    let k ← checkIndex 15 a
    requireKey s
    checkLimit (s.nr.toNat + 1) a
    done { s with st := arkWith s.rk k.val s.st }

end Sys2Proof.Machine
end

