-- ==== Sys2Proof/Machine/RoundPipeline.lean ====
section
/-! DEFINITION. RoundPipeline: the forward and inverse cipher on one block, and ENC, DEC (46_round_pipeline.md). -/

namespace Sys2Proof.Machine

/-- The body of one full forward round (rule R180). -/
def forwardRound (rk : Vector Word 60) (m : Matrix) (k : Nat) : Matrix :=
  arkWith rk k (mixColumns (shiftRows (subBytes m)))

/-- The body of one full inverse round, in the document's order (rule R181). -/
def inverseRound (rk : Vector Word 60) (m : Matrix) (k : Nat) : Matrix :=
  invMixColumns (arkWith rk k (invSubBytes (invShiftRows m)))

/-- The middle rounds `1 .. NR-1`, increasing. -/
def middleRounds (nr : Nat) : List Nat := List.range' 1 (nr - 1)

/-- `cipher(s, w, NR)`, rule R180: no MixColumns in the final round. -/
def cipher (rk : Vector Word 60) (nr : Nat) (m : Matrix) : Matrix :=
  arkWith rk nr (shiftRows (subBytes ((middleRounds nr).foldl (forwardRound rk) (arkWith rk 0 m))))

/-- `invCipher(s, w, NR)`, rule R181: the middle rounds in decreasing order, with the same round keys. -/
def invCipher (rk : Vector Word 60) (nr : Nat) (m : Matrix) : Matrix :=
  arkWith rk 0 (invSubBytes (invShiftRows ((middleRounds nr).reverse.foldl (inverseRound rk) (arkWith rk nr m))))

/-- ENC, rule R183: in place on BLK, the final state left in ST. -/
def execEnc (s : State) : Result :=
  command .enc s do
    requireKey s
    let m := cipher s.rk s.nr.toNat (toState s.blk)
    done { s with st := m, blk := fromState m }

/-- DEC, rule R184. -/
def execDec (s : State) : Result :=
  command .dec s do
    requireKey s
    let m := invCipher s.rk s.nr.toNat (toState s.blk)
    done { s with st := m, blk := fromState m }

end Sys2Proof.Machine
end

