-- ==== Sys2Proof/Machine/XorCipher.lean ====
section
/-! DEFINITION. The XOR cipher datapath: XKCLR, XKPUSH, XRST, XSTEP, and the function they compute (47_xor.md). -/

namespace Sys2Proof.Machine

/-- `xorText(t, k)`, rule R190: `out[i] = t[i] XOR k[i mod n]`, for a key of `n >= 1` characters. -/
def xorText (t k : List Char16) : List Char16 :=
  t.mapIdx fun i v => v ^^^ k.getD (i % k.length) 0

/-- XKCLR, rule R192: clear XKEY, XKLEN, XPOS; the AES stores are untouched. -/
def execXkclr (s : State) : Result :=
  command .xkclr s (done { s with xkey := Vector.replicate 256 0, xklen := 0, xpos := 0 })

/-- XKPUSH imm16, rule R193: append one key character and go back to the key's start; a full store raises `ERR_XKFULL`. -/
def execXkpush (imm16 : Char16) (s : State) : Result :=
  command (.xkpush imm16) s
    (if h : s.xklen.val < 256 then
      done { s with xkey := s.xkey.set s.xklen.val imm16, xklen := ⟨s.xklen.val + 1, by omega⟩, xpos := 0 }
    else .error .xkFull)

/-- XRST, rule R194: `XPOS <- 0`. -/
def execXrst (s : State) : Result := command .xrst s (done { s with xpos := 0 })

/-- `(XPOS + 1) mod XKLEN` (rule R195), below 256 as XKLEN is at most 256. -/
def nextXpos (xpos : Fin 256) (xklen : Fin 257) (h : xklen.val ≠ 0) : Fin 256 :=
  ⟨(xpos.val + 1) % xklen.val, by
    have := Nat.mod_lt (xpos.val + 1) (Nat.pos_of_ne_zero h)
    omega⟩

/-- XSTEP imm16, rule R195: respond with the character XOR the key character at XPOS, then advance XPOS cyclically; an empty
key raises `ERR_XNOKEY`. -/
def execXstep (imm16 : Char16) (s : State) : Result :=
  command (.xstep imm16) s
    (if h : s.xklen.val = 0 then .error .xNoKey
    else respond { s with xpos := nextXpos s.xpos s.xklen h } (zext16 (imm16 ^^^ s.xkey[s.xpos])))

end Sys2Proof.Machine
end

