-- ==== Sys2Proof/Machine/Dispatch.lean ====
section
/-! DEFINITION. One arm per command, each one call of its meaning (rule R74). -/

namespace Sys2Proof.Machine

def exec (i : Instr) (s : State) : Host.Outcome State Fault Refusal :=
  match i with
  | .nop => Sys2Proof.Machine.execNop s
  | .srst => Sys2Proof.Machine.execSrst s
  | .csrr a => Sys2Proof.Machine.execCsrr a s
  | .kclr => Sys2Proof.Machine.execKclr s
  | .kpush c => Sys2Proof.Machine.execKpush c s
  | .kexp => Sys2Proof.Machine.execKexp s
  | .rkrd a => Sys2Proof.Machine.execRkrd a s
  | .bwr a c => Sys2Proof.Machine.execBwr a c s
  | .brd a => Sys2Proof.Machine.execBrd a s
  | .tost => Sys2Proof.Machine.execTost s
  | .frst => Sys2Proof.Machine.execFrst s
  | .swr a b c => Sys2Proof.Machine.execSwr a b c s
  | .srd a b => Sys2Proof.Machine.execSrd a b s
  | .subb => Sys2Proof.Machine.execSubb s
  | .isubb => Sys2Proof.Machine.execIsubb s
  | .shr => Sys2Proof.Machine.execShr s
  | .ishr => Sys2Proof.Machine.execIshr s
  | .mixc => Sys2Proof.Machine.execMixc s
  | .imixc => Sys2Proof.Machine.execImixc s
  | .ark a => Sys2Proof.Machine.execArk a s
  | .enc => Sys2Proof.Machine.execEnc s
  | .dec => Sys2Proof.Machine.execDec s
  | .gfmul a c => Sys2Proof.Machine.execGfmul a c s
  | .sbox c => Sys2Proof.Machine.execSbox c s
  | .isbox c => Sys2Proof.Machine.execIsbox c s
  | .rcon a => Sys2Proof.Machine.execRcon a s
  | .xkclr => Sys2Proof.Machine.execXkclr s
  | .xkpush imm16 => Sys2Proof.Machine.execXkpush imm16 s
  | .xrst => Sys2Proof.Machine.execXrst s
  | .xstep imm16 => Sys2Proof.Machine.execXstep imm16 s

end Sys2Proof.Machine
end

