-- ==== Sys2Proof/Machine/Step.lean ====
section
/-! DEFINITION. One step: the engine looks at its input ports once (rules R20, R60, R63, R70).

There is no program counter and no fetch from memory (rules R29, R56): the next command is whatever the host presents next. -/

namespace Sys2Proof.Machine

/-- One step: idle, reset by `rst`, or one whole command taken, decoded and executed (rules R60, R90, R250). -/
def step (s : State) : Host.Outcome State Fault Refusal :=
  match takeInput s with
  | (.idle, s') => .next s'
  | (.reset, s') => .next s'.resetEngine
  | (.command w, s') =>
    match decode w with
    | .ok i => exec i s'
    | .error e => undecodable e w s'

/-- The state in which the host presents the table word `w` of `nbits` bits next, so that `step` takes and runs exactly it. -/
def State.withFetchWord (s : State) (nbits w : Nat) : State := s.present (BitVec.ofNat 32 (w % 2 ^ nbits))

end Sys2Proof.Machine
end

