-- ==== Sys2Proof/Machine/Assembler.lean ====
section
/-! DEFINITION. The assembler syntax of rule R80 (30_encoding.md). -/

namespace Sys2Proof.Machine

/-- A space inside a line (between the mnemonic and its operands, and around an operand). -/
def isBlank (c : Char) : Bool := c == ' '

/-- A `;` starts a comment. -/
def withoutComment (line : List Char) : List Char := line.takeWhile (· != ';')

/-- Blanks at both ends dropped. -/
def trimBlanks (cs : List Char) : List Char := ((cs.dropWhile isBlank).reverse.dropWhile isBlank).reverse

/-- The pieces between commas. -/
def splitCommas : List Char → List (List Char)
  | [] => [[]]
  | c :: cs =>
    if c = ',' then [] :: splitCommas cs
    else
      match splitCommas cs with
      | [] => [[c]]
      | t :: ts => (c :: t) :: ts

/-- The value of a digit in a base up to 16, either case of a hexadecimal letter. -/
def digitValue (base : Nat) (c : Char) : Option Nat :=
  let n := c.toNat
  let v := if 48 ≤ n ∧ n ≤ 57 then n - 48 else if 97 ≤ n ∧ n ≤ 102 then n - 87 else if 65 ≤ n ∧ n ≤ 70 then n - 55 else 16
  if v < base then some v else none

/-- One or more digits of a base, most significant first. -/
def parseDigits (base : Nat) (cs : List Char) : Option Nat :=
  if cs = [] then none
  else cs.foldl (fun acc c => acc.bind fun n => (digitValue base c).map fun d => base * n + d) (some 0)

/-- A decimal number or a `0x` hexadecimal number. -/
def parseNumber : List Char → Option Nat
  | '0' :: 'x' :: cs => parseDigits 16 cs
  | cs => parseDigits 10 cs

/-- `word = (op << 24) | (a << 16) | (b << 8) | c`, the operands in the order `a`, `b`, `c` (or `imm16`); an operand that does not
fit its field, or a wrong number of operands, is no command. -/
def assembleWord (op : Byte) : Format → List Nat → Option Word
  | .N, [] => some (packFields op 0 0 0)
  | .A, [a] => if a < 256 then some (packFields op (BitVec.ofNat 8 a) 0 0) else none
  | .C, [c] => if c < 256 then some (packFields op 0 0 (BitVec.ofNat 8 c)) else none
  | .AC, [a, c] => if a < 256 ∧ c < 256 then some (packFields op (BitVec.ofNat 8 a) 0 (BitVec.ofNat 8 c)) else none
  | .AB, [a, b] => if a < 256 ∧ b < 256 then some (packFields op (BitVec.ofNat 8 a) (BitVec.ofNat 8 b) 0) else none
  | .ABC, [a, b, c] =>
    if a < 256 ∧ b < 256 ∧ c < 256 then
      some (packFields op (BitVec.ofNat 8 a) (BitVec.ofNat 8 b) (BitVec.ofNat 8 c))
    else none
  | .H, [v] => if v < 65536 then some (packImm op (BitVec.ofNat 16 v)) else none
  | _, _ => none

/-- One line of assembler text to its word (rule R80). -/
def assembleLine (line : List Char) : Option Word :=
  let body := trimBlanks (withoutComment line)
  let mnemonic := body.takeWhile (fun c => !isBlank c)
  let rest := trimBlanks (body.dropWhile (fun c => !isBlank c))
  let operands := if rest = [] then some [] else (splitCommas rest).mapM fun t => parseNumber (trimBlanks t)
  match opcodeMap.find? (fun r => r.mnemonic.toList == mnemonic), operands with
  | some r, some ns => assembleWord r.op r.format ns
  | _, _ => none

end Sys2Proof.Machine
end

