-- ==== Sys2Proof/Machine/Transaction.lean ====
section
/-! DEFINITION. Transactions and sequences of them (rules R63, R70), and the pseudo-commands (rule R81). -/

namespace Sys2Proof.Machine

/-- One transaction, rule R70: from a state and a command word to the state and the response.  It never ends without both. -/
def transact (s : State) (w : Word) : Option (State × Response) :=
  match step (s.present w) with
  | .next t => t.rsp.map fun r => (t, r)
  | .fault _ => none
  | .refused _ => none

/-- The host presents the words in order: the final state and the responses in command order (rules R63, R70). -/
def runWords : State → List Word → Option (State × List Response)
  | s, [] => some (s, [])
  | s, w :: ws =>
    match transact s w with
    | none => none
    | some (t, r) =>
      match runWords t ws with
      | none => none
      | some (u, rs) => some (u, r :: rs)

/-- The same for commands, each presented as its word. -/
def runCommands (s : State) (is : List Instr) : Option (State × List Response) := runWords s (is.map encode)

/-- `n` as an operand byte. -/
def byteOfNat (n : Nat) : Byte := BitVec.ofNat 8 n

/-- The nine pseudo-commands of rule R81; none has an encoding of its own. -/
inductive Pseudo where
  | ldkey (key : List Byte)
  | ldblk (d : Block)
  | rdblk
  | ldst (d : Block)
  | rdst
  | encblk (d : Block)
  | decblk (d : Block)
  | ldxkey (key : List Char16)
  | xtext (text : List Char16)
  deriving DecidableEq, Repr

/-- `BWR 0, d0; ...; BWR 15, d15`. -/
def loadBlock (d : Block) : List Instr := d.toList.mapIdx fun i v => .bwr (byteOfNat i) v

/-- `BRD 0; ...; BRD 15`. -/
def readBlock : List Instr := (List.range 16).map fun i => .brd (byteOfNat i)

/-- The command sequence a pseudo-command stands for (rule R81). -/
def Pseudo.expand : Pseudo → List Instr
  | .ldkey key => .kclr :: key.map .kpush ++ [.kexp]
  | .ldblk d => loadBlock d
  | .rdblk => readBlock
  | .ldst d => loadBlock d ++ [.tost]
  | .rdst => .frst :: readBlock
  | .encblk d => loadBlock d ++ [.enc] ++ readBlock
  | .decblk d => loadBlock d ++ [.dec] ++ readBlock
  | .ldxkey key => .xkclr :: key.map .xkpush
  | .xtext text => .xrst :: text.map .xstep

/-! ## The step-command sequences of rule R185 -/

/-- `{ SUBB ; SHR ; MIXC ; ARK k }`. -/
def forwardRoundCommands (k : Nat) : List Instr := [.subb, .shr, .mixc, .ark (byteOfNat k)]

/-- `{ ISHR ; ISUBB ; ARK k ; IMIXC }`. -/
def inverseRoundCommands (k : Nat) : List Instr := [.ishr, .isubb, .ark (byteOfNat k), .imixc]

/-- The commands `ENC` is equivalent to, for a round count. -/
def encCommands (nr : Nat) : List Instr :=
  [.tost, .ark 0] ++ (middleRounds nr).flatMap forwardRoundCommands ++ [.subb, .shr, .ark (byteOfNat nr), .frst]

/-- The commands `DEC` is equivalent to, for a round count. -/
def decCommands (nr : Nat) : List Instr :=
  [.tost, .ark (byteOfNat nr)] ++ (middleRounds nr).reverse.flatMap inverseRoundCommands ++ [.ishr, .isubb, .ark 0, .frst]

end Sys2Proof.Machine
end

