-- ==== Sys2Proof/Machine/HostContract.lean ====
section
/-! DEFINITION. The host's software contract (48_host_contract.md, 60_exceptions.md rules R232, R233, R240).

This is software that runs on the host, not part of the engine (rule R6): it adds no engine state and no command.  It drives the
engine only through `runCommands`.  Wire text is handled as code points (natural numbers), so that the AES path, whose text is
characters, and the XOR path, whose text is 16-bit units (rule R191, D9), share one codec. -/

namespace Sys2Proof.Machine.Contract

/-- What the host may report (rules R232, R240). -/
inductive HostError where
  /-- MalformedCiphertext, the one error of the document's contract (rules R222, R233). -/
  | malformedCiphertext
  /-- An engine fault: an internal error of the host (rule R240, D26). -/
  | engineFault
  /-- An XOR key of length 0 or above 256, refused before it is loaded (rules R219, R261, U5, U6). -/
  | xorKeyRefused
  deriving DecidableEq, Repr

/-- A decrypted text: characters, or what `utf8_decode_policy` makes of bytes that are not valid UTF-8 (rule R201). -/
inductive DecryptedText where
  | text (t : List Char)
  | notUtf8 (o : Config.Utf8Outcome)
  deriving DecidableEq, Repr

/-! ## Text and bytes (rule R201) -/

/-- The UTF-8 bytes of a text; also of a key text (D30). -/
def utf8Bytes (t : List Char) : List Byte := t.flatMap fun c => (String.utf8EncodeChar c).map UInt8.toBitVec

/-- The six payload bits of a continuation byte. -/
def contBits (b : Byte) : Nat := b.toNat % 64

/-- One character read off the front of a byte sequence by its lead byte, without any check of validity. -/
def readChar : List Byte → Option (Char × List Byte)
  | [] => none
  | b :: rest =>
    if b.toNat < 0x80 then some (Char.ofNat b.toNat, rest)
    else if b.toNat < 0xE0 then
      match rest with
      | b1 :: r => some (Char.ofNat (b.toNat % 32 * 64 + contBits b1), r)
      | _ => none
    else if b.toNat < 0xF0 then
      match rest with
      | b1 :: b2 :: r => some (Char.ofNat ((b.toNat % 16 * 64 + contBits b1) * 64 + contBits b2), r)
      | _ => none
    else
      match rest with
      | b1 :: b2 :: b3 :: r =>
        some (Char.ofNat (((b.toNat % 8 * 64 + contBits b1) * 64 + contBits b2) * 64 + contBits b3), r)
      | _ => none

/-- Characters read one after another; each takes at least one byte, so `fuel` = the number of bytes is enough. -/
def readChars : Nat → List Byte → Option (List Char)
  | _, [] => some []
  | 0, _ :: _ => none
  | fuel + 1, bs =>
    match readChar bs with
    | none => none
    | some (c, rest) => (readChars fuel rest).map (c :: ·)

/-- Bytes as text: the text whose UTF-8 bytes they are; where there is none, the OPEN policy decides (rule R201, D35). -/
def utf8Decode (bs : List Byte) : DecryptedText :=
  match readChars bs.length bs with
  | some t => if utf8Bytes t = bs then .text t else .notUtf8 (Config.utf8DecodePolicy bs)
  | none => .notUtf8 (Config.utf8DecodePolicy bs)

/-! ## PaddingScheme (rules R202 to R207) -/

/-- `pad(bytes)`, rule R202: `p = 16 - (n mod 16)` bytes of value `p`, always at least one. -/
def pad (bytes : List Byte) : List Byte :=
  let p := 16 - bytes.length % 16
  bytes ++ List.replicate p (BitVec.ofNat 8 p)

/-- `unpad(bytes)`, rule R206: strip a valid pad, otherwise the input unchanged. -/
def unpad (bytes : List Byte) : List Byte :=
  match bytes.getLast? with
  | none => bytes
  | some last =>
    let p := last.toNat
    if 1 ≤ p ∧ p ≤ 16 ∧ p ≤ bytes.length ∧ bytes.drop (bytes.length - p) = List.replicate p last then
      bytes.take (bytes.length - p)
    else bytes

/-! ## WireCodec (rules R210 to R213, R217, R218) -/

/-- U+0020, the one separator (D31). -/
def space : Nat := 32

/-- An ASCII digit (D31, D34). -/
def isDigit (c : Nat) : Bool := 48 ≤ c && c ≤ 57

/-- The decimal representation of a number, no leading zeros (rule R210). -/
def decimal (n : Nat) : List Nat := (Nat.toDigits 10 n).map Char.toNat

/-- `wireEncode`, AES, rule R210: joined with single spaces, nothing after the last. -/
def wireEncode (bytes : List Byte) : List Nat := List.intercalate [space] (bytes.map fun b => decimal b.toNat)

/-- XOR wire text, rule R217: every number, the last included, is followed by a space. -/
def xorWireEncode (values : List Char16) : List Nat := values.flatMap fun v => decimal v.toNat ++ [space]

/-- The pieces between spaces, empty ones included. -/
def splitSpaces : List Nat → List (List Nat)
  | [] => [[]]
  | c :: cs =>
    if c = space then [] :: splitSpaces cs
    else
      match splitSpaces cs with
      | [] => [[c]]
      | t :: ts => (c :: t) :: ts

/-- Tokens, rule R211: split on spaces, empty tokens at the end dropped. -/
def tokens (t : List Nat) : List (List Nat) := ((splitSpaces t).reverse.dropWhile List.isEmpty).reverse

/-- A numeric token: one or more ASCII digits, leading zeros accepted (rule R211). -/
def parseToken (t : List Nat) : Option Nat :=
  if t ≠ [] ∧ t.all isDigit then some (t.foldl (fun n c => 10 * n + (c - 48)) 0) else none

/-- A token with a value of at most `max`. -/
def parseBounded (max : Nat) (t : List Nat) : Option Nat :=
  match parseToken t with
  | some n => if n ≤ max then some n else none
  | none => none

/-- All tokens parsed; `none` is MalformedCiphertext (rules R211, R218, R233). -/
def parseTokens (max : Nat) (t : List Nat) : Option (List Nat) := (tokens t).mapM (parseBounded max)

/-- `wireParse`, AES: values 0 to 255 (rule R211). -/
def wireParse (t : List Nat) : Option (List Byte) := (parseTokens 255 t).map fun ns => ns.map (BitVec.ofNat 8)

/-- Tokens of XOR wire text: values 0 to 65535 (rule R218). -/
def xorWireParse (t : List Nat) : Option (List Char16) := (parseTokens 65535 t).map fun ns => ns.map (BitVec.ofNat 16)

/-! ## Direction heuristic (rules R214 to R216) -/

/-- `looksEncryptedXOR(t)`, rule R215: digits and spaces only, with at least one space. -/
def looksEncryptedXor (t : List Nat) : Bool := t.all (fun c => isDigit c || c == space) && t.contains space

/-- `looksEncryptedAES(t)`, rule R214: the same, and at least 16 tokens. -/
def looksEncryptedAes (t : List Nat) : Bool := looksEncryptedXor t && 16 ≤ (tokens t).length

/-! ## AES path (rules R208, R209) -/

/-- Code points of a text. -/
def codePoints (t : List Char) : List Nat := t.map Char.toNat

/-- A wire text as characters (all its code points are ASCII). -/
def wireChars (t : List Nat) : List Char := t.map Char.ofNat

/-- Whole blocks of a byte sequence, in order (rule R208). -/
def blocks (bytes : List Byte) : List Block :=
  (List.range (bytes.length / 16)).map fun j => Vector.ofFn fun i => bytes.getD (16 * j + i.val) 0

/-- Run commands and keep the response data; a response that is not ok is an engine fault (rule R240). -/
def runOk (s : State) (is : List Instr) : Except HostError (State × List Word) :=
  match runCommands s is with
  | some (t, rs) => if rs.all Response.ok then .ok (t, rs.map Response.data) else .error .engineFault
  | none => .error .engineFault

/-- One block per pass, in input order: the sixteen responses after the sixteen `BWR` and the `ENC` or `DEC` (rules R81, R186, R208). -/
def runBlocks (pass : Block → Pseudo) : State → List Block → Except HostError (State × List Byte)
  | s, [] => .ok (s, [])
  | s, b :: bs => do
    let (t, data) ← runOk s (pass b).expand
    let (u, rest) ← runBlocks pass t bs
    .ok (u, (data.drop 17).map (fun w => w.setWidth 8) ++ rest)

/-- Load the key, then run every block of `bytes` (rules R208, R209). -/
def aesBytes (pass : Block → Pseudo) (s : State) (key bytes : List Byte) : Except HostError (State × List Byte) := do
  let (t, _) ← runOk s (Pseudo.ldkey key).expand
  runBlocks pass t (blocks bytes)

/-- AES encrypt path, rule R208. -/
def encrypt (s : State) (plaintext key : List Char) : Except HostError (State × List Char) := do
  let (t, ct) ← aesBytes .encblk s (utf8Bytes key) (pad (utf8Bytes plaintext))
  .ok (t, wireChars (wireEncode ct))

/-- AES decrypt path, rule R209: MalformedCiphertext is raised before any command reaches the engine (rule R233). -/
def decrypt (s : State) (ciphertext key : List Char) : Except HostError (State × DecryptedText) :=
  match wireParse (codePoints ciphertext) with
  | none => .error .malformedCiphertext
  | some ct =>
    if ct.length % 16 ≠ 0 then .error .malformedCiphertext
    else do
      let (t, pb) ← aesBytes .decblk s (utf8Bytes key) ct
      .ok (t, utf8Decode (unpad pb))

/-- `processWithAES`, rule R220: direction by the heuristic. -/
def processWithAes (s : State) (text key : List Char) : Except HostError (State × DecryptedText) :=
  if looksEncryptedAes (codePoints text) then decrypt s text key
  else do
    let (t, w) ← encrypt s text key
    .ok (t, .text w)

/-! ## XOR path (rules R217 to R219), on 16-bit units -/

/-- Load the key and step the text through it: the responses as units (rules R81, R196, R217). -/
def xorUnits (s : State) (text key : List Char16) : Except HostError (State × List Char16) :=
  if key.length = 0 ∨ 256 < key.length then .error .xorKeyRefused
  else do
    let (t, _) ← runOk s (Pseudo.ldxkey key).expand
    let (u, data) ← runOk t (Pseudo.xtext text).expand
    .ok (u, (data.drop 1).map fun w => w.setWidth 16)

/-- Units as code points. -/
def unitPoints (t : List Char16) : List Nat := t.map BitVec.toNat

/-- XOR encrypt, rule R217: the wire text as units. -/
def xorEncrypt (s : State) (text key : List Char16) : Except HostError (State × List Char16) := do
  let (t, values) ← xorUnits s text key
  .ok (t, (xorWireEncode values).map (BitVec.ofNat 16))

/-- XOR decrypt, rule R218. -/
def xorDecrypt (s : State) (wire key : List Char16) : Except HostError (State × List Char16) :=
  match xorWireParse (unitPoints wire) with
  | none => .error .malformedCiphertext
  | some values => xorUnits s values key

/-- `processXOR(text, key)`, also `processWithXOR` (rules R219, R220). -/
def processWithXor (s : State) (text key : List Char16) : Except HostError (State × List Char16) :=
  if looksEncryptedXor (unitPoints text) then xorDecrypt s text key else xorEncrypt s text key

end Sys2Proof.Machine.Contract
end

