-- ==== Sys2Proof/Safety.lean ====
section
/-! DEFINITION. What counts as a good state and a safe run, in the terms the statements use (rules R30, R43, R234, R237). -/

namespace Sys2Proof.Machine

/-- The only key word counts and round counts there are (rules R26, R143): `(NK, NR)`. -/
def legalSizes (nk nr : Nat) : Prop := (nk = 4 ∧ nr = 10) ∨ (nk = 6 ∧ nr = 12) ∨ (nk = 8 ∧ nr = 14)

/-- The invariant of rule R43, with the code set of rule R231. -/
structure State.Inv (s : State) : Prop where
  /-- Item 1: `0 <= KLEN <= 33`. -/
  klen_le : s.klen.toNat ≤ 33
  /-- Item 2: with `RKV = 1`, `(NK, NR)` is legal. -/
  key_sizes : s.rkv = true → legalSizes s.nk.toNat s.nr.toNat
  /-- Item 2: with `RKV = 1`, the valid part of RK is the expansion of the effective key in the key store. -/
  key_words : s.rkv = true → ∀ i : Fin 60, i.val < 4 * (s.nr.toNat + 1) →
    s.rk[i] = (expand (storedEffectiveKey s.keybuf s.klen.toNat)).words.getD i.val 0
  /-- Item 3: with no XOR key, `XPOS = 0`. -/
  xpos_zero : s.xklen.val = 0 → s.xpos.val = 0
  /-- Item 3: otherwise `XPOS < XKLEN`. -/
  xpos_lt : s.xklen.val ≠ 0 → s.xpos.val < s.xklen.val
  /-- Item 4: `FCMD = 0` when `ERR = 0`. -/
  fcmd_zero : s.err = 0 → s.fcmd = 0
  /-- Rule R231: `ERR` holds 0 or one of the six codes. -/
  err_code : s.err.toNat ≤ 6

/-- A command ran safely from `s` to `t`: it executed, with `rsp_ok = 1` (rules R79, R230). -/
def Executed (i : Instr) (s t : State) : Prop := exec i s = .next t ∧ ∃ v, t.rsp = some ⟨true, v⟩

/-- A run of commands is safe when every response is ok: no command faulted and none was refused (rules R234, R240). -/
def SafeRun (s : State) (is : List Instr) (t : State) : Prop :=
  ∃ rs, runCommands s is = some (t, rs) ∧ ∀ r ∈ rs, r.ok = true

/-! ## GF(2^8) said as polynomials (rule R110), apart from the peasant loop -/

/-- The product of two polynomials over GF(2), degree at most 14: bit `i` is the coefficient of x^i. -/
def polyMul (a b : Byte) : BitVec 16 :=
  (List.range 8).foldl (fun acc i => if b.getLsbD i then acc ^^^ (a.setWidth 16 <<< i) else acc) 0

/-- One step of long division by `m(x) = x^8 + x^4 + x^3 + x + 1`, written 0x11B: remove the term x^(8+k). -/
def polyReduceAt (v : BitVec 16) (k : Nat) : BitVec 16 := if v.getLsbD (8 + k) then v ^^^ (0x11B <<< k) else v

/-- The remainder modulo `m(x)` of a polynomial of degree at most 14. -/
def polyMod (v : BitVec 16) : Byte := (([6, 5, 4, 3, 2, 1, 0] : List Nat).foldl polyReduceAt v).setWidth 8

/-- `A(y)` of rule R123 item 2: the affine map of the S-box construction. -/
def sboxAffine (y : Byte) : Byte :=
  y ^^^ y.rotateLeft 1 ^^^ y.rotateLeft 2 ^^^ y.rotateLeft 3 ^^^ y.rotateLeft 4 ^^^ 0x63

/-! ## Wire text said by its characters (rules R211, R233), apart from the host's parser -/

/-- The number a token of decimal digits writes: ten times the number before each digit, plus the digit. -/
def tokenValue (token : List Nat) : Nat := token.foldl (fun n c => 10 * n + (c - 48)) 0

/-- A numeric token with a value of at most `max` (rule R211): one or more ASCII digits, leading zeros accepted. -/
def IsNumber (max : Nat) (token : List Nat) : Prop :=
  token ≠ [] ∧ (∀ c ∈ token, 48 ≤ c ∧ c ≤ 57) ∧ tokenValue token ≤ max

/-- What makes a wire text malformed (rule R233 items 2 to 4): somewhere between two spaces, or between a space and an end of the
text, stands a piece without spaces that holds a character which is no digit, or is empty while something other than spaces
follows it, or writes a number above `max`. -/
def HasBadToken (max : Nat) (text : List Nat) : Prop :=
  ∃ before token after : List Nat, text = before ++ token ++ after ∧
    (before = [] ∨ ∃ b, before = b ++ [32]) ∧ (after = [] ∨ ∃ a, after = 32 :: a) ∧ (∀ c ∈ token, c ≠ 32) ∧
    ((∃ c ∈ token, c < 48 ∨ 57 < c) ∨ (token = [] ∧ ∃ c ∈ after, c ≠ 32) ∨ max < tokenValue token)

/-- Numeric tokens joined by single spaces, with any number of spaces after the last (rules R210, R211). -/
def wireTextOf (tokens : List (List Nat)) (trailing : Nat) : List Nat :=
  List.intercalate [32] tokens ++ List.replicate trailing 32

end Sys2Proof.Machine
end

