-- ==== Sys2Proof/Certificates/Slice0/Obligations.lean ====
section
/-! DEFINITION. The statements put to the provers: each formalises rules of spec/, for every state and operand. -/

open Sys2Proof Sys2Proof.Machine

/-! ## Encoding -/

/-- Decoding the word of any command gives that command, with every operand at every value (rules R71 to R75, R80). -/
def Obligations.DecodeOfEncodeIsTheCommand : Prop :=
  ∀ i : Instr, decode (encode i) = .ok i

/-- Rule R75: every word is exactly one of an illegal opcode, a reserved-field violation, and one command, whose fields are the
word's.  Legality is said by the lists of rules R72 and R76 themselves. -/
def Obligations.EveryWordIsExactlyOneOfThree : Prop :=
  ∀ w : Word,
    (wordOpcodeLegal w = false ∧ decode w = .error .illegalOpcode) ∨
    (wordOpcodeLegal w = true ∧ wordReservedClear w = false ∧ decode w = .error .reservedBit) ∨
    (wordOpcodeLegal w = true ∧ wordReservedClear w = true ∧ ∃ i, decode w = .ok i ∧ encode i = w)

/-- Rule R76: 226 opcodes are illegal, and presenting a word with one of them to an unfaulted engine faults with code 0x01
whatever its other bits are. -/
def Obligations.IllegalOpcodeFaults : Prop :=
  (List.range 256).countP illegalOpcode = 226 ∧
  ∀ (s : State) (w : Word), s.err = 0 → illegalOpcode (w.toNat / 2 ^ 24) = true →
    step (s.present w) = .next { s with err := 0x01, fcmd := w, rsp := some ⟨false, 0x01⟩ }

/-- Rule R77: a legal opcode with a reserved bit set faults with code 0x02. -/
def Obligations.ReservedBitFaults : Prop :=
  ∀ (s : State) (w : Word), s.err = 0 → illegalOpcode (w.toNat / 2 ^ 24) = false →
    w &&& reservedBits (w.toNat / 2 ^ 24) ≠ 0 →
    step (s.present w) = .next { s with err := 0x02, fcmd := w, rsp := some ⟨false, 0x02⟩ }

/-- Rule R78: the word 0 is the only encoding of NOP. -/
def Obligations.OnlyTheZeroWordIsNop : Prop :=
  ∀ w : Word, decode w = .ok .nop ↔ w = 0x00000000

/-- The words rule R80 and rules R92, R124, R126, R193 write out, read by the decoder. -/
def Obligations.WordsWrittenOutDecode : Prop :=
  decode 0x02010000 = .ok (.csrr 1) ∧ decode 0x1100002B = .ok (.kpush 0x2b) ∧
  decode 0x200F00FF = .ok (.bwr 15 0xff) ∧ decode 0x2402037C = .ok (.swr 2 3 0x7c) ∧
  decode 0x25020300 = .ok (.srd 2 3) ∧ decode 0x360A0000 = .ok (.ark 10) ∧
  decode 0x50570083 = .ok (.gfmul 0x57 0x83) ∧ decode 0x63000048 = .ok (.xstep 0x0048) ∧
  decode 0x6100006B = .ok (.xkpush 0x006b) ∧ decode 0x53080000 = .ok (.rcon 8) ∧
  decode 0x40000001 = .error .reservedBit ∧ decode 0x99FFFFFF = .error .illegalOpcode

/-! ## The step, reset, and the faulted state -/

/-- A presented word that decodes to a command is run as that command, on the state with that input taken and no response
present (rules R70, R75, R90).  The list of pending inputs is the model's form of the ports (log entry 1). -/
def Obligations.StepRunsTheDecodedCommand : Prop :=
  ∀ (s : State) (w : Word) (rest : List PortInput) (i : Instr),
    s.inputs = ⟨false, some w⟩ :: rest → decode w = .ok i →
    step s = exec i { s with inputs := rest, rsp := none }

/-- Rule R250: `rst` and `SRST` reset the engine from any state, faulted too, with the same effect on state; while `rst` is
asserted no command is taken and no response is produced; `SRST` responds `(1, 0)`.  That the inputs the host has yet to present
stay (`inputs := rest`, `inputs := s.inputs`) is the model's choice, read from rule R41 (log entry 3, DEDUCED). -/
def Obligations.BothResetsReachTheResetState : Prop :=
  (∀ (s : State) (cmd : Option Word) (rest : List PortInput), s.inputs = ⟨true, cmd⟩ :: rest →
    step s = .next { State.reset with inputs := rest, rsp := none }) ∧
  (∀ s : State, exec .srst s = .next { State.reset with inputs := s.inputs, rsp := some ⟨true, 0⟩ })

/-- Rule R42: the value of every piece of state after reset. -/
def Obligations.ResetValuesAreAllZero : Prop :=
  (∀ i : Fin 16, State.reset.blk[i] = 0) ∧ (∀ r c : Fin 4, Matrix.cell State.reset.st r c = 0) ∧
  (∀ i : Fin 32, State.reset.keybuf[i] = 0) ∧ State.reset.klen = 0 ∧ (∀ i : Fin 60, State.reset.rk[i] = 0) ∧
  State.reset.nr = 0 ∧ State.reset.nk = 0 ∧ State.reset.rkv = false ∧ (∀ i : Fin 256, State.reset.xkey[i] = 0) ∧
  State.reset.xklen = 0 ∧ State.reset.xpos = 0 ∧ State.reset.err = 0 ∧ State.reset.fcmd = 0

/-- The invariant of rule R43 holds in the reset state. -/
def Obligations.ResetStateIsGood : Prop := State.reset.Inv

/-- The invariant of rule R43, which the spec derives, is kept by every step, from every state that meets it. -/
def Obligations.EveryStepKeepsGoodStates : Prop :=
  ∀ s t : State, s.Inv → step s = .next t → t.Inv

/-- Rule R236: when a word presented to an unfaulted engine faults, `ERR` takes one of the six codes, `FCMD` the word, the
response is `(0, code)`, and nothing else changes. -/
def Obligations.FaultEntryChangesNothingElse : Prop :=
  ∀ (s t : State) (w d : Word), s.err = 0 → step (s.present w) = .next t → t.rsp = some ⟨false, d⟩ →
    ∃ code : Nat, 1 ≤ code ∧ code ≤ 6 ∧
      t = { s with err := BitVec.ofNat 8 code, fcmd := w, rsp := some ⟨false, BitVec.ofNat 32 code⟩ }

/-- Rule R237: in the faulted state only the word of `SRST` and the words of `CSRR 0` to `CSRR 4` execute; every other word is
refused with `(0, ERR)` and no state change.  That `SRST` keeps the inputs the host has yet to present (`inputs := s.inputs`) is
the model's choice, read from rule R41 (log entry 3, DEDUCED). -/
def Obligations.FaultedEngineRefusesOtherWords : Prop :=
  ∀ (s : State) (w : Word), s.err ≠ 0 →
    (w = 0x01000000 → step (s.present w) = .next { State.reset with inputs := s.inputs, rsp := some ⟨true, 0⟩ }) ∧
    (∀ n : Fin 5, w.extractLsb' 24 8 = (0x02 : Byte) → w.extractLsb' 0 16 = (0 : BitVec 16) →
      (w.extractLsb' 16 8 : Byte).toNat = n.val →
      step (s.present w) = .next { s with rsp := some ⟨true, csr s n⟩ }) ∧
    (w ≠ 0x01000000 →
      ¬ (w.extractLsb' 24 8 = (0x02 : Byte) ∧ w.extractLsb' 0 16 = (0 : BitVec 16) ∧
          (w.extractLsb' 16 8 : Byte).toNat ≤ 4) →
      step (s.present w) = .next { s with rsp := some ⟨false, s.err.setWidth 32⟩ })

/-- Rules R238 and R239 (the second one derived by the spec): the faulted state is left only by reset.  A step that takes `rst` or
the word of `SRST` reaches the reset state; after any other step `ERR`, `FCMD` and every store keep their values, so no second
fault is ever raised. -/
def Obligations.FaultedStateIsLeftOnlyByReset : Prop :=
  ∀ s t : State, s.err ≠ 0 → step s = .next t →
    let resets : Prop := ∃ p rest, s.inputs = p :: rest ∧ (p.rst = true ∨ p.cmd = some 0x01000000)
    (resets → t = { State.reset with inputs := t.inputs, rsp := t.rsp }) ∧
    (¬ resets → t = { s with inputs := t.inputs, rsp := t.rsp })

/-- Rule R62: an index outside a store faults with code 0x03 and changes nothing else; `SBOX` and `ISBOX` take every index. -/
def Obligations.IndexOutsideItsStoreFaults : Prop :=
  ∀ s : State, s.err = 0 →
    let faults := fun i : Instr =>
      exec i s = .next { s with err := 0x03, fcmd := encode i, rsp := some ⟨false, 0x03⟩ }
    (∀ a c : Byte, 15 < a.toNat → faults (.bwr a c)) ∧ (∀ a : Byte, 15 < a.toNat → faults (.brd a)) ∧
    (∀ a b c : Byte, 3 < a.toNat ∨ 3 < b.toNat → faults (.swr a b c)) ∧
    (∀ a b : Byte, 3 < a.toNat ∨ 3 < b.toNat → faults (.srd a b)) ∧
    (∀ a : Byte, 9 < a.toNat → faults (.rcon a)) ∧ (∀ a : Byte, 4 < a.toNat → faults (.csrr a)) ∧
    (∀ a : Byte, 59 < a.toNat → faults (.rkrd a)) ∧ (∀ a : Byte, 14 < a.toNat → faults (.ark a)) ∧
    (∀ a : Byte, s.rkv = true → 4 * (s.nr.toNat + 1) ≤ a.toNat → faults (.rkrd a)) ∧
    (∀ a : Byte, s.rkv = true → s.nr.toNat < a.toNat → faults (.ark a)) ∧
    (∀ c : Byte, ∃ v, exec (.sbox c) s = .next { s with rsp := some ⟨true, v⟩ }) ∧
    (∀ c : Byte, ∃ v, exec (.isbox c) s = .next { s with rsp := some ⟨true, v⟩ })

/-- Rule R235 items 4 and 5: with no valid round keys an index past the fixed bound raises code 0x03 and one within it 0x04; the
checks of an empty XOR key and of a full XOR key store raise codes 0x05 and 0x06. -/
def Obligations.StateChecksFaultInOrder : Prop :=
  ∀ s : State, s.err = 0 →
    let faults := fun (code : Nat) (i : Instr) =>
      exec i s = .next { s with err := BitVec.ofNat 8 code, fcmd := encode i, rsp := some ⟨false, BitVec.ofNat 32 code⟩ }
    (s.rkv = false → faults 4 .enc ∧ faults 4 .dec ∧
      (∀ a : Byte, a.toNat ≤ 59 → faults 4 (.rkrd a)) ∧ (∀ a : Byte, 59 < a.toNat → faults 3 (.rkrd a)) ∧
      (∀ a : Byte, a.toNat ≤ 14 → faults 4 (.ark a)) ∧ (∀ a : Byte, 14 < a.toNat → faults 3 (.ark a))) ∧
    (s.xklen.val = 0 → ∀ v : Char16, faults 5 (.xstep v)) ∧
    (s.xklen.val = 256 → ∀ v : Char16, faults 6 (.xkpush v))

/-- Rules R60 and R70: every command ends, every step answers a next state, and a step produces a response exactly when it takes
a command.  Rules R241 and R249: a step with nothing presented, or with `rst` and `cmd_valid` both 0, changes nothing but the
ports.  That no response is present after a step that takes no command is the model's choice (log entry 2), and so is the list
of inputs (log entry 1). -/
def Obligations.EveryCommandEndsWithOneResponse : Prop :=
  (∀ (i : Instr) (s : State), ∃ t r, exec i s = .next t ∧ t.rsp = some r) ∧
  (∀ s : State, ∃ t, step s = .next t ∧
    (t.rsp.isSome = true ↔ ∃ w rest, s.inputs = ⟨false, some w⟩ :: rest)) ∧
  (∀ s : State, s.inputs = [] → step s = .next { s with rsp := none }) ∧
  (∀ (s : State) (rest : List PortInput), s.inputs = ⟨false, none⟩ :: rest →
    step s = .next { s with inputs := rest, rsp := none })

/-! ## Control -/

/-- NOP leaves the state unchanged and responds `(1, 0)` (rule R91). -/
def Obligations.NopOnlyResponds : Prop :=
  ∀ s : State, s.err = 0 → exec .nop s = .next { s with rsp := some ⟨true, 0⟩ }

/-- `CSRR n` responds with the fields rules R33, R34, R35 and R37 give, and changes nothing else; it does so in the faulted
state too. -/
def Obligations.CsrrRespondsWithTheView : Prop :=
  ∀ s : State,
    (∃ v : Word, exec (.csrr 0) s = .next { s with rsp := some ⟨true, v⟩ } ∧
      v.toNat = s.err.toNat + 2 ^ 8 * s.rkv.toNat) ∧
    (∃ v : Word, exec (.csrr 1) s = .next { s with rsp := some ⟨true, v⟩ } ∧
      v.toNat = s.klen.toNat + 2 ^ 8 * s.nk.toNat + 2 ^ 16 * s.nr.toNat) ∧
    (∃ v : Word, exec (.csrr 2) s = .next { s with rsp := some ⟨true, v⟩ } ∧
      v.toNat = s.xklen.val + 2 ^ 16 * s.xpos.val) ∧
    exec (.csrr 3) s = .next { s with rsp := some ⟨true, s.fcmd⟩ } ∧
    exec (.csrr 4) s = .next { s with rsp := some ⟨true, 0x41455307⟩ }

/-! ## The key store and the key schedule -/

/-- KCLR clears the key bytes, their count and `RKV`; RK, NR, NK and everything else keep their values (rule R94). -/
def Obligations.KclrClearsTheKeyStore : Prop :=
  ∀ s : State, s.err = 0 → ∃ t,
    exec .kclr s = .next t ∧ (∀ i : Fin 32, t.keybuf[i] = 0) ∧
    t = { s with keybuf := t.keybuf, klen := 0, rkv := false, rsp := some ⟨true, 0⟩ }

/-- KPUSH writes the byte at KLEN if that is below 32, counts up to 33, clears `RKV`, and changes nothing else (rule R95). -/
def Obligations.KpushAppendsOneKeyByte : Prop :=
  ∀ (s : State) (c : Byte), s.err = 0 → ∃ t,
    exec (.kpush c) s = .next t ∧
    (∀ i : Fin 32, t.keybuf[i] = if i.val = s.klen.toNat then c else s.keybuf[i]) ∧
    t.klen.toNat = min (s.klen.toNat + 1) 33 ∧
    t = { s with keybuf := t.keybuf, klen := t.klen, rkv := false, rsp := some ⟨true, 0⟩ }

/-- Rule R96, which the spec derives: after `KCLR` and `KPUSH` of a whole key, `KLEN = min(n, 33)`, the first `min(n, 32)` cells
hold the key's bytes, the others 0, and `RKV = 0`; every response is ok and nothing else changed. -/
def Obligations.LoadingAKeyFillsTheKeyStore : Prop :=
  ∀ (s : State) (key : List Byte), s.err = 0 → ∃ t rs,
    runCommands s (.kclr :: key.map .kpush) = some (t, rs) ∧ (∀ r ∈ rs, r = ⟨true, 0⟩) ∧
    t.klen.toNat = min key.length 33 ∧
    (∀ i : Fin 32, t.keybuf[i] = if i.val < min key.length 32 then key.getD i.val 0 else 0) ∧
    t = { s with keybuf := t.keybuf, klen := t.klen, rkv := false, rsp := some ⟨true, 0⟩ }

/-- RKRD responds with `RK[a]` for every word of the current schedule and changes nothing (rule R98). -/
def Obligations.RkrdRespondsWithTheWord : Prop :=
  ∀ (s : State) (a : Byte), s.err = 0 → s.rkv = true → a.toNat < 4 * (s.nr.toNat + 1) → ∀ h : a.toNat < 60,
    exec (.rkrd a) s = .next { s with rsp := some ⟨true, s.rk[a.toNat]⟩ }

/-- Rule R140: a standard key is used as it is; any other is cut to its first 16 bytes or filled with zero bytes to 16, and the
expansion does not tell a coerced key from the 16-byte key it becomes. -/
def Obligations.OtherKeyLengthsAreCoerced : Prop :=
  ∀ key : List Byte,
    ((key.length = 16 ∨ key.length = 24 ∨ key.length = 32) → effectiveKey key = key) ∧
    (¬ (key.length = 16 ∨ key.length = 24 ∨ key.length = 32) →
      (effectiveKey key).length = 16 ∧
      (∀ j < 16, (effectiveKey key).getD j 0 = if j < min key.length 16 then key.getD j 0 else 0) ∧
      expand (effectiveKey key) = expand key)

/-- Rule R142, which the spec derives: the 32 stored bytes and the saturated count determine the effective key of every raw key;
cells at or past the count may hold anything. -/
def Obligations.StoredKeyDeterminesTheEffectiveKey : Prop :=
  ∀ (key : List Byte) (keybuf : Vector Byte 32),
    (∀ i : Fin 32, i.val < key.length → keybuf[i] = key.getD i.val 0) →
    storedEffectiveKey keybuf (min key.length 33) = effectiveKey key

/-- Rule R146: the sizes, the first words and the recurrence of the expansion of any key.  What `pack`, `rotWord` and `subWord` are
is said by numbers and byte by byte (rules R13, R145): byte 0 of a word is the most significant. -/
def Obligations.ExpansionFollowsTheRecurrence : Prop :=
  (∀ b0 b1 b2 b3 : Byte,
    (pack b0 b1 b2 b3).toNat = b0.toNat * 2 ^ 24 + b1.toNat * 2 ^ 16 + b2.toNat * 2 ^ 8 + b3.toNat) ∧
  (∀ (w : Word) (k : Fin 4), (byteOf k w).toNat = w.toNat / 2 ^ (24 - 8 * k.val) % 256) ∧
  (∀ w : Word, byteOf 0 (rotWord w) = byteOf 1 w ∧ byteOf 1 (rotWord w) = byteOf 2 w ∧ byteOf 2 (rotWord w) = byteOf 3 w ∧
    byteOf 3 (rotWord w) = byteOf 0 w) ∧
  (∀ (w : Word) (k : Fin 4), byteOf k (subWord w) = sbox (byteOf k w)) ∧
  ∀ key : List Byte,
    let ek := effectiveKey key
    let ks := expand key
    ks.nk = ek.length / 4 ∧ ks.nr = (if ek.length = 16 then 10 else if ek.length = 24 then 12 else 14) ∧
    ks.words.length = 4 * (ks.nr + 1) ∧
    (∀ i < ks.nk, ks.words.getD i 0 =
      pack (ek.getD (4 * i) 0) (ek.getD (4 * i + 1) 0) (ek.getD (4 * i + 2) 0) (ek.getD (4 * i + 3) 0)) ∧
    (∀ i, ks.nk ≤ i → i < 4 * (ks.nr + 1) →
      ks.words.getD i 0 = ks.words.getD (i - ks.nk) 0 ^^^
        (if i % ks.nk = 0 then
          subWord (rotWord (ks.words.getD (i - 1) 0)) ^^^ pack (rconTable.toList.getD (i / ks.nk - 1) 0) 0 0 0
        else if ks.nk > 6 ∧ i % ks.nk = 4 then subWord (ks.words.getD (i - 1) 0)
        else ks.words.getD (i - 1) 0))

/-- KEXP stores the expansion of the effective key, sets NR, NK and `RKV`, keeps the words past the last one and everything else
(rule R150). -/
def Obligations.KexpStoresTheExpansion : Prop :=
  ∀ s : State, s.err = 0 →
    let ks := expand (storedEffectiveKey s.keybuf s.klen.toNat)
    ∃ t, exec .kexp s = .next t ∧ t.nr.toNat = ks.nr ∧ t.nk.toNat = ks.nk ∧ legalSizes ks.nk ks.nr ∧
      (∀ i : Fin 60, t.rk[i] = if i.val < 4 * (ks.nr + 1) then ks.words.getD i.val 0 else s.rk[i]) ∧
      t = { s with rk := t.rk, nr := t.nr, nk := t.nk, rkv := true, rsp := some ⟨true, 0⟩ }

/-- After `LDKEY` of any raw key the round-key store holds the expansion of that key, whatever its length (rules R81, R142,
R150). -/
def Obligations.LoadingAnyKeyExpandsIt : Prop :=
  ∀ (s : State) (key : List Byte), s.err = 0 → ∃ t rs,
    runCommands s (Pseudo.ldkey key).expand = some (t, rs) ∧ (∀ r ∈ rs, r = ⟨true, 0⟩) ∧ t.rkv = true ∧
    t.nr.toNat = (expand key).nr ∧ t.nk.toNat = (expand key).nk ∧
    (∀ i : Fin 60, i.val < 4 * ((expand key).nr + 1) → t.rk[i] = (expand key).words.getD i.val 0)

/-! ## Block and state access -/

/-- BWR writes one cell of BLK and BRD reads one; nothing else changes (rules R99, R100). -/
def Obligations.BlockCellsAreReadAndWritten : Prop :=
  ∀ (s : State) (a c : Byte), s.err = 0 → ∀ h : a.toNat < 16,
    (∃ t, exec (.bwr a c) s = .next t ∧
      (∀ j : Fin 16, t.blk[j] = if j.val = a.toNat then c else s.blk[j]) ∧
      t = { s with blk := t.blk, rsp := some ⟨true, 0⟩ }) ∧
    exec (.brd a) s = .next { s with rsp := some ⟨true, s.blk[a.toNat].setWidth 32⟩ }

/-- SWR writes one cell of ST, row `a` and column `b`, and SRD reads one; nothing else changes (rules R101, R102). -/
def Obligations.StateCellsAreReadAndWritten : Prop :=
  ∀ (s : State) (a b c : Byte) (row col : Fin 4), s.err = 0 → a.toNat = row.val → b.toNat = col.val →
    (∃ t, exec (.swr a b c) s = .next t ∧
      (∀ r k : Fin 4, Matrix.cell t.st r k = if r = row ∧ k = col then c else Matrix.cell s.st r k) ∧
      t = { s with st := t.st, rsp := some ⟨true, 0⟩ }) ∧
    exec (.srd a b) s = .next { s with rsp := some ⟨true, (Matrix.cell s.st row col).setWidth 32⟩ }

/-- TOST and FRST move the sixteen bytes by the column-major mapping and change nothing else (rules R130, R131, R133, R134). -/
def Obligations.BlockCodecMovesByColumns : Prop :=
  ∀ s : State, s.err = 0 →
    (∃ t, exec .tost s = .next t ∧
      (∀ (r c : Fin 4) (i : Fin 16), i.val = 4 * c.val + r.val → Matrix.cell t.st r c = s.blk[i]) ∧
      t = { s with st := t.st, rsp := some ⟨true, 0⟩ }) ∧
    (∃ t, exec .frst s = .next t ∧
      (∀ (r c : Fin 4) (i : Fin 16), i.val = 4 * c.val + r.val → t.blk[i] = Matrix.cell s.st r c) ∧
      t = { s with blk := t.blk, rsp := some ⟨true, 0⟩ })

/-- Rule R132, which the spec derives: the two mappings are exact inverses. -/
def Obligations.BlockCodecMappingsAreInverse : Prop :=
  (∀ b : Block, fromState (toState b) = b) ∧ (∀ m : Matrix, toState (fromState m) = m)

/-! ## Round steps -/

/-- SUBB and ISUBB replace every cell of ST by its table entry and change nothing else (rules R160, R161, R171, R172). -/
def Obligations.SubstitutionStepsActOnEveryCell : Prop :=
  ∀ s : State, s.err = 0 →
    (∃ t, exec .subb s = .next t ∧ (∀ r c : Fin 4, Matrix.cell t.st r c = sbox (Matrix.cell s.st r c)) ∧
      t = { s with st := t.st, rsp := some ⟨true, 0⟩ }) ∧
    (∃ t, exec .isubb s = .next t ∧ (∀ r c : Fin 4, Matrix.cell t.st r c = invSbox (Matrix.cell s.st r c)) ∧
      t = { s with st := t.st, rsp := some ⟨true, 0⟩ })

/-- SHR moves row `r` left by `r` places and ISHR right by `r`, cyclically; nothing else changes (rules R162, R163, R173, R174). -/
def Obligations.ShiftStepsRotateTheRows : Prop :=
  ∀ s : State, s.err = 0 →
    (∃ t, exec .shr s = .next t ∧
      (∀ r c k : Fin 4, k.val = (c.val + r.val) % 4 → Matrix.cell t.st r c = Matrix.cell s.st r k) ∧
      t = { s with st := t.st, rsp := some ⟨true, 0⟩ }) ∧
    (∃ t, exec .ishr s = .next t ∧
      (∀ r c k : Fin 4, k.val = (c.val + 4 - r.val) % 4 → Matrix.cell t.st r c = Matrix.cell s.st r k) ∧
      t = { s with st := t.st, rsp := some ⟨true, 0⟩ })

/-- MIXC and IMIXC replace every column by the products rules R164 and R165 write out; nothing else changes (rules R175, R176). -/
def Obligations.MixStepsMultiplyTheColumns : Prop :=
  ∀ s : State, s.err = 0 →
    (∃ t, exec .mixc s = .next t ∧
      (∀ c : Fin 4,
        let a := fun r : Fin 4 => Matrix.cell s.st r c
        Matrix.cell t.st 0 c = gfmul 2 (a 0) ^^^ gfmul 3 (a 1) ^^^ a 2 ^^^ a 3 ∧
        Matrix.cell t.st 1 c = a 0 ^^^ gfmul 2 (a 1) ^^^ gfmul 3 (a 2) ^^^ a 3 ∧
        Matrix.cell t.st 2 c = a 0 ^^^ a 1 ^^^ gfmul 2 (a 2) ^^^ gfmul 3 (a 3) ∧
        Matrix.cell t.st 3 c = gfmul 3 (a 0) ^^^ a 1 ^^^ a 2 ^^^ gfmul 2 (a 3)) ∧
      t = { s with st := t.st, rsp := some ⟨true, 0⟩ }) ∧
    (∃ t, exec .imixc s = .next t ∧
      (∀ c : Fin 4,
        let b := fun r : Fin 4 => Matrix.cell s.st r c
        Matrix.cell t.st 0 c = gfmul 14 (b 0) ^^^ gfmul 11 (b 1) ^^^ gfmul 13 (b 2) ^^^ gfmul 9 (b 3) ∧
        Matrix.cell t.st 1 c = gfmul 9 (b 0) ^^^ gfmul 14 (b 1) ^^^ gfmul 11 (b 2) ^^^ gfmul 13 (b 3) ∧
        Matrix.cell t.st 2 c = gfmul 13 (b 0) ^^^ gfmul 9 (b 1) ^^^ gfmul 14 (b 2) ^^^ gfmul 11 (b 3) ∧
        Matrix.cell t.st 3 c = gfmul 11 (b 0) ^^^ gfmul 13 (b 1) ^^^ gfmul 9 (b 2) ^^^ gfmul 14 (b 3)) ∧
      t = { s with st := t.st, rsp := some ⟨true, 0⟩ })

/-- ARK XORs byte `r` of word `4a + c` of RK into cell `(r, c)` of ST and changes nothing else (rules R170, R177). -/
def Obligations.ArkAddsTheRoundKey : Prop :=
  ∀ (s : State) (a : Byte), s.err = 0 → s.rkv = true → a.toNat ≤ s.nr.toNat → a.toNat ≤ 14 → ∃ t,
    exec (.ark a) s = .next t ∧
    (∀ (r c : Fin 4) (i : Fin 60), i.val = 4 * a.toNat + c.val →
      (Matrix.cell t.st r c).toNat = (Matrix.cell s.st r c).toNat ^^^ (s.rk[i].toNat / 2 ^ (24 - 8 * r.val) % 256)) ∧
    t = { s with st := t.st, rsp := some ⟨true, 0⟩ }

/-- Rule R166, which the spec derives: the matrix products of IM and M, products by `gfmul` and sums by XOR, are the identity
matrix both ways round, and so the two column steps undo each other on every state. -/
def Obligations.MixColumnsAndInverseUndoEachOther : Prop :=
  (∀ r c : Fin 4, Matrix.cell (mulColumns invMixMatrix mixMatrix) r c = if r = c then 1 else 0) ∧
  (∀ r c : Fin 4, Matrix.cell (mulColumns mixMatrix invMixMatrix) r c = if r = c then 1 else 0) ∧
  (∀ m : Matrix, invMixColumns (mixColumns m) = m) ∧ (∀ m : Matrix, mixColumns (invMixColumns m) = m)

/-- Rule R167, which the spec derives: SubBytes and ShiftRows are undone by their inverses both ways round, and commute; so do
the two inverses. -/
def Obligations.SubBytesAndShiftRowsInvertAndCommute : Prop :=
  ∀ m : Matrix,
    invSubBytes (subBytes m) = m ∧ subBytes (invSubBytes m) = m ∧
    invShiftRows (shiftRows m) = m ∧ shiftRows (invShiftRows m) = m ∧
    shiftRows (subBytes m) = subBytes (shiftRows m) ∧
    invShiftRows (invSubBytes m) = invSubBytes (invShiftRows m)

/-! ## The pipelines -/

/-- ENC and DEC put the result of their pipeline on BLK into both ST and BLK and change nothing else (rules R183, R184). -/
def Obligations.EncAndDecWorkInPlace : Prop :=
  ∀ s : State, s.err = 0 → s.rkv = true →
    let m := cipher s.rk s.nr.toNat (toState s.blk)
    let n := invCipher s.rk s.nr.toNat (toState s.blk)
    exec .enc s = .next { s with st := m, blk := fromState m, rsp := some ⟨true, 0⟩ } ∧
    exec .dec s = .next { s with st := n, blk := fromState n, rsp := some ⟨true, 0⟩ }

/-- Rule R182, which the spec derives: the inverse pipeline undoes the forward one and the forward one the inverse one, for
every state and round-key words, for 10, 12 and 14 rounds. -/
def Obligations.PipelinesAreInverse : Prop :=
  ∀ (rk : Vector Word 60) (nr : Nat) (m : Matrix), nr = 10 ∨ nr = 12 ∨ nr = 14 →
    invCipher rk nr (cipher rk nr m) = m ∧ cipher rk nr (invCipher rk nr m) = m

/-- Rule R185, which the spec derives: ENC and DEC leave everything exactly as their sequences of step commands do: TOST, the
first ARK, the full rounds, the final round, FRST.  (`NR` is never above 14: `EveryStepKeepsGoodStates`.) -/
def Obligations.EncAndDecEqualTheirStepCommands : Prop :=
  ∀ s : State, s.err = 0 → s.rkv = true → s.nr.toNat ≤ 14 →
    (∃ t rs, runCommands s (encCommands s.nr.toNat) = some (t, rs) ∧ (∀ r ∈ rs, r = ⟨true, 0⟩) ∧ exec .enc s = .next t) ∧
    (∃ t rs, runCommands s (decCommands s.nr.toNat) = some (t, rs) ∧ (∀ r ∈ rs, r = ⟨true, 0⟩) ∧ exec .dec s = .next t)

/-! ## Primitives -/

/-- GFMUL, SBOX, ISBOX and RCON respond with the primitive's value, zero-extended, and change nothing (rules R114, R124, R125,
R126). -/
def Obligations.PrimitivesRespondAndChangeNothing : Prop :=
  ∀ s : State, s.err = 0 →
    (∀ a c : Byte, exec (.gfmul a c) s = .next { s with rsp := some ⟨true, (gfmul a c).setWidth 32⟩ }) ∧
    (∀ c : Byte, exec (.sbox c) s = .next { s with rsp := some ⟨true, (sbox c).setWidth 32⟩ }) ∧
    (∀ c : Byte, exec (.isbox c) s = .next { s with rsp := some ⟨true, (invSbox c).setWidth 32⟩ }) ∧
    (∀ (a : Byte) (n : Fin 10), a.toNat = n.val →
      exec (.rcon a) s = .next { s with rsp := some ⟨true, rconTable[n].setWidth 32⟩ })

/-- Rule R110: `gfmul` is the product of the two polynomials reduced modulo x^8 + x^4 + x^3 + x + 1. -/
def Obligations.GfmulIsTheReducedPolynomialProduct : Prop :=
  ∀ a b : Byte, gfmul a b = polyMod (polyMul a b)

/-- Rule R113, which the spec derives: laws 1 to 7 of `gfmul`. -/
def Obligations.GfmulHasTheFieldLaws : Prop :=
  (∀ a : Byte, gfmul a 0 = 0 ∧ gfmul 0 a = 0 ∧ gfmul a 1 = a ∧ gfmul 1 a = a) ∧
  (∀ a b : Byte, gfmul a b = gfmul b a) ∧
  (∀ a b c : Byte, gfmul (gfmul a b) c = gfmul a (gfmul b c)) ∧
  (∀ a b c : Byte, gfmul a (b ^^^ c) = gfmul a b ^^^ gfmul a c) ∧
  (∀ a b : Byte, gfmul a b = 0 → a = 0 ∨ b = 0) ∧
  (∀ a : Byte, a ≠ 0 → ∃ b : Byte, gfmul a b = 1 ∧ ∀ c : Byte, gfmul a c = 1 → c = b) ∧
  (∀ a : Byte, gfmul a 2 = xtime a ∧ gfmul a 3 = xtime a ^^^ a) ∧
  (∀ a : Byte,
    let x2 := xtime a
    let x4 := xtime x2
    let x8 := xtime x4
    gfmul a 9 = x8 ^^^ a ∧ gfmul a 11 = x8 ^^^ x2 ^^^ a ∧ gfmul a 13 = x8 ^^^ x4 ^^^ a ∧ gfmul a 14 = x8 ^^^ x4 ^^^ x2)

/-- Rule R123 items 1 to 4, T20 and rule R122: the two tables are inverse permutations, the S-box is the field inverse followed by
the affine map, it has no fixed and no opposite fixed point, the four checks of T20 (sum, XOR, sum of `i*T[i]`, sum of `i*i*T[i]`
modulo 65521) hold for both tables, and each round constant is `xtime` of the one before. -/
def Obligations.TablesPassTheirChecks : Prop :=
  let entries := fun T : Byte → Byte => (List.range 256).map fun i => (T (BitVec.ofNat 8 i)).toNat
  let weighted := fun (f : Nat → Nat) (T : Byte → Byte) =>
    ((List.range 256).map fun i => f i * (T (BitVec.ofNat 8 i)).toNat).sum
  (∀ x : Byte, invSbox (sbox x) = x ∧ sbox (invSbox x) = x) ∧
  (sbox 0 = sboxAffine 0 ∧ ∀ x y : Byte, gfmul x y = 1 → sbox x = sboxAffine y) ∧
  (∀ x : Byte, sbox x ≠ x ∧ sbox x ≠ x ^^^ 0xFF) ∧
  (entries sbox).sum = 32640 ∧ (entries invSbox).sum = 32640 ∧
  (entries sbox).foldl (· ^^^ ·) 0 = 0 ∧ (entries invSbox).foldl (· ^^^ ·) 0 = 0 ∧
  weighted (fun i => i) sbox = 4100348 ∧ weighted (fun i => i) invSbox = 4100348 ∧
  weighted (fun i => i * i) sbox % 65521 = 55883 ∧ weighted (fun i => i * i) invSbox % 65521 = 17794 ∧
  rconTable[0] = 0x01 ∧ (∀ j k : Fin 10, k.val = j.val + 1 → rconTable[k] = xtime rconTable[j])

/-! ## The XOR datapath -/

/-- XKCLR, XKPUSH below 256 characters, and XRST write the XOR key store as rules R192, R193 and R194 say and nothing else. -/
def Obligations.XorKeyStoreIsLoaded : Prop :=
  ∀ s : State, s.err = 0 →
    (∃ t, exec .xkclr s = .next t ∧ (∀ i : Fin 256, t.xkey[i] = 0) ∧
      t = { s with xkey := t.xkey, xklen := 0, xpos := 0, rsp := some ⟨true, 0⟩ }) ∧
    (∀ v : Char16, s.xklen.val < 256 → ∃ t, exec (.xkpush v) s = .next t ∧
      (∀ i : Fin 256, t.xkey[i] = if i.val = s.xklen.val then v else s.xkey[i]) ∧ t.xklen.val = s.xklen.val + 1 ∧
      t = { s with xkey := t.xkey, xklen := t.xklen, xpos := 0, rsp := some ⟨true, 0⟩ }) ∧
    exec .xrst s = .next { s with xpos := 0, rsp := some ⟨true, 0⟩ }

/-- XSTEP responds with its character XOR the key character at XPOS and advances XPOS modulo XKLEN; nothing else changes (rule
R195). -/
def Obligations.XstepXorsAndAdvances : Prop :=
  ∀ (s : State) (v : Char16), s.err = 0 → s.xklen.val ≠ 0 → ∃ t,
    exec (.xstep v) s = .next t ∧ t.xpos.val = (s.xpos.val + 1) % s.xklen.val ∧
    t = { s with xpos := t.xpos, rsp := some ⟨true, (v ^^^ s.xkey[s.xpos]).setWidth 32⟩ }

/-- Rule R190: `xorText` is position by position, keeps the length, and applied twice gives the text back. -/
def Obligations.XorTextIsItsOwnInverse : Prop :=
  ∀ t k : List Char16, k.length ≠ 0 →
    (xorText t k).length = t.length ∧
    (∀ i < t.length, (xorText t k).getD i 0 = t.getD i 0 ^^^ k.getD (i % k.length) 0) ∧
    xorText (xorText t k) k = t

/-- Rule R196, which the spec derives: loading a key of 1 to 256 characters and stepping a text through it responds with
`xorText` of them, in order, and leaves `XPOS = m mod n`. -/
def Obligations.SteppingATextComputesXorText : Prop :=
  ∀ (s : State) (k text : List Char16), s.err = 0 → 1 ≤ k.length → k.length ≤ 256 → ∃ u t rs₀ rs,
    runCommands s (Pseudo.ldxkey k).expand = some (u, rs₀) ∧ (∀ r ∈ rs₀, r = ⟨true, 0⟩) ∧
    runCommands u (Pseudo.xtext text).expand = some (t, ⟨true, 0⟩ :: rs) ∧
    rs = (xorText text k).map (fun v => ⟨true, v.setWidth 32⟩) ∧
    t.xpos.val = text.length % k.length

/-! ## Whole-machine rules -/

/-- Rule R97: no command responds with a cell of the key store: whatever the key bytes are, every command responds the same, and
every command but KEXP leaves states that differ at most in the key bytes.  This is about one command: KEXP does carry the key
into RK, which RKRD reads, so the key is no secret from the host (rule R97). -/
def Obligations.NoResponseDependsDirectlyOnTheKeyBytes : Prop :=
  ∀ (i : Instr) (s : State) (kb : Vector Byte 32), ∃ t t',
    exec i s = .next t ∧ exec i { s with keybuf := kb } = .next t' ∧ t'.rsp = t.rsp ∧
    (i ≠ .kexp → t' = { t with keybuf := t'.keybuf })

/-- The write columns of rule R244: which commands can change which piece of state.  (SRST may change anything.)
That no command changes the list of pending inputs is the model's form of the ports (log entry 1). -/
def Obligations.OnlyTheListedCommandsWriteEachStore : Prop :=
  ∀ (i : Instr) (s t : State), exec i s = .next t → i ≠ .srst →
    (t.blk ≠ s.blk → (∃ a c, i = .bwr a c) ∨ i = .frst ∨ i = .enc ∨ i = .dec) ∧
    (t.st ≠ s.st → (∃ a b c, i = .swr a b c) ∨ i = .tost ∨ i = .subb ∨ i = .isubb ∨ i = .shr ∨ i = .ishr ∨ i = .mixc ∨
      i = .imixc ∨ (∃ a, i = .ark a) ∨ i = .enc ∨ i = .dec) ∧
    (t.keybuf ≠ s.keybuf ∨ t.klen ≠ s.klen → i = .kclr ∨ ∃ c, i = .kpush c) ∧
    (t.rk ≠ s.rk ∨ t.nr ≠ s.nr ∨ t.nk ≠ s.nk → i = .kexp) ∧
    (t.rkv ≠ s.rkv → i = .kexp ∧ t.rkv = true ∨ (i = .kclr ∨ ∃ c, i = .kpush c) ∧ t.rkv = false) ∧
    (t.xkey ≠ s.xkey ∨ t.xklen ≠ s.xklen → i = .xkclr ∨ ∃ v, i = .xkpush v) ∧
    (t.xpos ≠ s.xpos → i = .xkclr ∨ (∃ v, i = .xkpush v) ∨ i = .xrst ∨ ∃ v, i = .xstep v) ∧
    (t.err ≠ s.err ∨ t.fcmd ≠ s.fcmd → ∃ d, t.rsp = some ⟨false, d⟩) ∧
    t.inputs = s.inputs

/-- Rule R59: the read commands change no state when they do not fault, and issued again respond the same. -/
def Obligations.ReadsAreIdempotent : Prop :=
  ∀ (i : Instr) (s t : State) (v : Word),
    (i = .nop ∨ (∃ a, i = .brd a) ∨ (∃ a b, i = .srd a b) ∨ (∃ a, i = .rkrd a) ∨ (∃ a, i = .csrr a) ∨
      (∃ c, i = .sbox c) ∨ (∃ c, i = .isbox c) ∨ (∃ a, i = .rcon a) ∨ ∃ a c, i = .gfmul a c) →
    exec i s = .next t → t.rsp = some ⟨true, v⟩ →
    t = { s with rsp := some ⟨true, v⟩ } ∧ exec i t = .next t

/-- Rule R259: interleaving XOR commands with AES commands is harmless: one that executes and one that executes after it can be
taken in the other order, with the same responses and the same state. -/
def Obligations.XorAndAesCommandsCommute : Prop :=
  ∀ (i j : Instr) (s t u : State) (v w : Word),
    (j = .xkclr ∨ (∃ x, j = .xkpush x) ∨ j = .xrst ∨ ∃ x, j = .xstep x) →
    ¬ (i = .xkclr ∨ (∃ x, i = .xkpush x) ∨ i = .xrst ∨ (∃ x, i = .xstep x) ∨ i = .srst ∨ ∃ a, i = .csrr a) →
    exec i s = .next t → t.rsp = some ⟨true, v⟩ → exec j t = .next u → u.rsp = some ⟨true, w⟩ →
    ∃ t' u', exec j s = .next t' ∧ t'.rsp = some ⟨true, w⟩ ∧ exec i t' = .next u' ∧
      u' = { u with rsp := some ⟨true, v⟩ }

/-! ## The host's software contract -/

/-- Rules R202, R203 and R207: padding appends `p` bytes of value `p` with 1 ≤ p ≤ 16, to a whole number of blocks, one more than
the whole blocks there were; unpadding a padded text gives the text back. -/
def Obligations.PaddingFillsBlocksAndIsUndone : Prop :=
  ∀ bytes : List Byte,
    (∃ p : Nat, 1 ≤ p ∧ p ≤ 16 ∧ p = 16 - bytes.length % 16 ∧
      Contract.pad bytes = bytes ++ List.replicate p (BitVec.ofNat 8 p)) ∧
    (Contract.pad bytes).length = 16 * (bytes.length / 16 + 1) ∧
    Contract.unpad (Contract.pad bytes) = bytes

/-- Rule R212, which the spec derives: parsing the wire text of a byte sequence gives it back.  Rule R211: numeric tokens of at most
255, joined by single spaces, parse to the numbers they write, leading zeros and spaces at the end accepted. -/
def Obligations.WireParseUndoesWireEncode : Prop :=
  (∀ bytes : List Byte, Contract.wireParse (Contract.wireEncode bytes) = some bytes) ∧
  (∀ (tokens : List (List Nat)) (trailing : Nat), (∀ token ∈ tokens, IsNumber 255 token) →
    Contract.wireParse (wireTextOf tokens trailing) = some (tokens.map fun token => BitVec.ofNat 8 (tokenValue token)))

/-- Rule R233, said by the characters of the wire text: a character in a token that is no digit, an empty token before the end, a
value above 255 (AES) or 65535 (XOR), and nothing else, make a text unparsable; each of these, and a count of integers that is
not a multiple of 16 (AES), raises MalformedCiphertext, whatever the engine's state.  The XOR clause holds for every key: that a
malformed text is reported before a key of no characters or of more than 256 is refused is the model's choice (log entry 11,
DESIGN CHOICE). -/
def Obligations.MalformedCiphertextIsRaised : Prop :=
  (∀ text : List Nat, (Contract.wireParse text = none ↔ HasBadToken 255 text) ∧
    (Contract.xorWireParse text = none ↔ HasBadToken 65535 text)) ∧
  (∀ (s : State) (w key : List Char),
    (HasBadToken 255 (w.map Char.toNat) → Contract.decrypt s w key = .error .malformedCiphertext) ∧
    (∀ tokens trailing, (∀ token ∈ tokens, IsNumber 255 token) → w.map Char.toNat = wireTextOf tokens trailing →
      tokens.length % 16 ≠ 0 → Contract.decrypt s w key = .error .malformedCiphertext)) ∧
  (∀ (s : State) (w key : List Char16), HasBadToken 65535 (w.map BitVec.toNat) →
    Contract.xorDecrypt s w key = .error .malformedCiphertext)

/-- ENCBLK with a valid key responds with the sixteen bytes of the forward cipher of its block, in block order (rules R81, R183,
R208). -/
def Obligations.EncryptingABlockRespondsWithTheCipher : Prop :=
  ∀ (s : State) (d : Block), s.err = 0 → s.rkv = true →
    let m := cipher s.rk s.nr.toNat (toState d)
    ∃ t rs, runCommands s (Pseudo.encblk d).expand = some (t, rs) ∧ (∀ r ∈ rs, r.ok = true) ∧
      (rs.drop 17).map Response.data = (fromState m).toList.map (fun b => b.setWidth 32) ∧
      t = { s with blk := fromState m, st := m, rsp := t.rsp }

/-- Rule R221, which the spec derives, for keys of every length: encrypting a text and decrypting the wire text with the same
key, on any unfaulted engine, gives the text back. -/
def Obligations.AesTextRoundTrip : Prop :=
  ∀ (s s' : State) (text key : List Char), s.err = 0 → s'.err = 0 → ∃ t w u,
    Contract.encrypt s text key = .ok (t, w) ∧ Contract.decrypt s' w key = .ok (u, .text text)

/-- Rule R219: for a text that is not itself taken for ciphertext and a key of 1 to 256 characters, `processXOR` twice gives the
text back.  (Other key lengths are refused by the host: log entry 11.) -/
def Obligations.XorTextRoundTrip : Prop :=
  ∀ (s s' : State) (text key : List Char16), s.err = 0 → s'.err = 0 → 1 ≤ key.length → key.length ≤ 256 →
    Contract.looksEncryptedXor (Contract.unitPoints text) = false → ∃ t w u,
      Contract.processWithXor s text key = .ok (t, w) ∧ Contract.processWithXor s' w key = .ok (u, text)
end

