-- ==== Sys2Proof/Laws/Decode.lean ====
section
/-! SUPPORT. The fields of an encoded word, masks on it, and how the decoder's rows are found (rules R71, R72, R75). -/

namespace Sys2Proof

/-! ## Words as four byte fields -/

/-- The number of a concatenation. -/
theorem append_toNat {m n : Nat} (x : BitVec m) (y : BitVec n) : (x ++ y).toNat = x.toNat * 2 ^ n + y.toNat := by
  rw [BitVec.toNat_append, ← Nat.shiftLeft_add_eq_or_of_lt y.isLt, Nat.shiftLeft_eq]

/-- Bitwise and goes through a concatenation. -/
theorem append_and {m n : Nat} (x x' : BitVec m) (y y' : BitVec n) :
    (x ++ y) &&& (x' ++ y') = (x &&& x') ++ (y &&& y') := by
  apply BitVec.eq_of_getLsbD_eq
  intro i _
  simp only [BitVec.getLsbD_and, BitVec.getLsbD_append]
  split <;> rfl

/-- The number of a packed word (rule R80). -/
theorem packFields_toNat (op a b c : Byte) :
    (packFields op a b c).toNat = op.toNat * 16777216 + a.toNat * 65536 + b.toNat * 256 + c.toNat := by
  simp only [packFields, append_toNat]; omega

/-- Bitwise and of packed words goes field by field. -/
theorem packFields_and (op a b c op' a' b' c' : Byte) :
    packFields op a b c &&& packFields op' a' b' c' = packFields (op &&& op') (a &&& a') (b &&& b') (c &&& c') := by
  refine (append_and (op ++ a ++ b) (op' ++ a' ++ b') c c').trans ?_
  rw [append_and, append_and]; rfl

@[simp] theorem opField_packFields (op a b c : Byte) : opField (packFields op a b c) = op := by
  apply BitVec.eq_of_toNat_eq
  have := a.isLt; have := b.isLt; have := c.isLt
  simp only [opField, BitVec.extractLsb'_toNat, packFields_toNat, Nat.shiftRight_eq_div_pow]; omega

@[simp] theorem aField_packFields (op a b c : Byte) : aField (packFields op a b c) = a := by
  apply BitVec.eq_of_toNat_eq
  have := a.isLt; have := b.isLt; have := c.isLt
  simp only [aField, BitVec.extractLsb'_toNat, packFields_toNat, Nat.shiftRight_eq_div_pow]; omega

@[simp] theorem bField_packFields (op a b c : Byte) : bField (packFields op a b c) = b := by
  apply BitVec.eq_of_toNat_eq
  have := a.isLt; have := b.isLt; have := c.isLt
  simp only [bField, BitVec.extractLsb'_toNat, packFields_toNat, Nat.shiftRight_eq_div_pow]; omega

@[simp] theorem cField_packFields (op a b c : Byte) : cField (packFields op a b c) = c := by
  apply BitVec.eq_of_toNat_eq
  have := a.isLt; have := b.isLt; have := c.isLt
  simp only [cField, BitVec.extractLsb'_toNat, packFields_toNat, Nat.shiftRight_eq_div_pow]; omega

/-- A word is the pack of its four byte fields (rule R71). -/
theorem packFields_fields (w : Word) : packFields (opField w) (aField w) (bField w) (cField w) = w := by
  apply BitVec.eq_of_toNat_eq
  have := w.isLt
  simp only [packFields_toNat, opField, aField, bField, cField, BitVec.extractLsb'_toNat, Nat.shiftRight_eq_div_pow]; omega

/-- `imm16` is `{b, c}` (rule R71). -/
theorem packImm_eq (op : Byte) (v : Char16) : packImm op v = packFields op 0 (v.extractLsb' 8 8) (v.extractLsb' 0 8) := by
  apply BitVec.eq_of_toNat_eq
  have := v.isLt
  simp only [packImm, packFields_toNat, append_toNat, BitVec.extractLsb'_toNat, Nat.shiftRight_eq_div_pow]
  simp; omega

@[simp] theorem opField_packImm (op : Byte) (v : Char16) : opField (packImm op v) = op := by simp [packImm_eq]

@[simp] theorem imm16Field_packImm (op : Byte) (v : Char16) : imm16Field (packImm op v) = v := by
  apply BitVec.eq_of_toNat_eq
  have := v.isLt
  simp only [imm16Field, BitVec.extractLsb'_toNat, packImm, append_toNat, Nat.shiftRight_eq_div_pow]
  simp; omega

/-- A word with `a = 0` is the pack of its opcode and its `imm16`. -/
theorem packImm_imm16Field (w : Word) (h : aField w = 0) : packImm (opField w) (imm16Field w) = w := by
  apply BitVec.eq_of_toNat_eq
  have h' := congrArg BitVec.toNat h
  have := w.isLt
  simp only [aField, BitVec.extractLsb'_toNat, Nat.shiftRight_eq_div_pow] at h'
  simp only [packImm, append_toNat, opField, imm16Field, BitVec.extractLsb'_toNat, Nat.shiftRight_eq_div_pow]
  simp at h' ⊢; omega

/-! ## Masks (rule R72) -/

/-- The fixed bits of an opcode as fields. -/
theorem matchBits_eq (op : Byte) : matchBits op = packFields op 0 0 0 := by
  apply BitVec.eq_of_toNat_eq
  simp only [matchBits, packFields_toNat, append_toNat]; simp

/-- Which of the fields `a`, `b`, `c` a format reserves. -/
def Format.reserves : Format → Bool × Bool × Bool
  | .N   => (true, true, true)
  | .A   => (false, true, true)
  | .C   => (true, true, false)
  | .AC  => (false, true, false)
  | .AB  => (false, false, true)
  | .ABC => (false, false, false)
  | .H   => (true, false, false)

/-- A byte of 1s for a reserved field. -/
def onesIf (b : Bool) : Byte := if b then 0xFF else 0

/-- A mask, field by field. -/
theorem Format.mask_eq (f : Format) :
    f.mask = packFields 0xFF (onesIf f.reserves.1) (onesIf f.reserves.2.1) (onesIf f.reserves.2.2) := by
  cases f <;> decide

/-- What the decoder's mask test says of a word: the reserved fields are 0 (rule R75). -/
theorem mask_test_iff (f : Format) (w : Word) :
    w &&& f.mask = matchBits (opField w) ↔
      (f.reserves.1 = true → aField w = 0) ∧ (f.reserves.2.1 = true → bField w = 0) ∧
        (f.reserves.2.2 = true → cField w = 0) := by
  have ones : ∀ (b : Bool) (x : Byte), (x &&& onesIf b = 0) ↔ (b = true → x = 0) := by
    intro b x
    have hx : x &&& 255#8 = x := by
      have := BitVec.and_allOnes (x := x)
      simpa using this
    cases b
    · simp [onesIf]
    · simp [onesIf, hx]
  have hop : ∀ x : Byte, x &&& 255#8 = x := fun x => by
    have := BitVec.and_allOnes (x := x)
    simpa using this
  have key : ∀ op a b c a' b' c' : Byte,
      packFields op a b c = packFields op a' b' c' ↔ a = a' ∧ b = b' ∧ c = c' := by
    intro op a b c a' b' c'
    constructor
    · intro h
      exact ⟨by simpa using congrArg aField h, by simpa using congrArg bField h, by simpa using congrArg cField h⟩
    · rintro ⟨rfl, rfl, rfl⟩; rfl
  conv_lhs => rw [← packFields_fields w]
  rw [Format.mask_eq, packFields_and, matchBits_eq, opField_packFields]
  simp only [BitVec.ofNat_eq_ofNat, hop]
  rw [key, ← BitVec.ofNat_eq_ofNat, ones, ones, ones]

/-! ## Rows (rule R74) -/

/-- The row found for an opcode has that opcode and stands in the map. -/
theorem findRow_some {op : Byte} {r : OpcodeRow} (h : findRow op = some r) : r ∈ opcodeMap ∧ r.op = op :=
  ⟨List.mem_of_find?_eq_some h, by simpa using List.find?_some h⟩

/-- A word whose row is found and whose reserved fields are 0 is the row's command (rule R75). -/
theorem decode_of_row {w : Word} {r : OpcodeRow} (h : findRow (opField w) = some r)
    (hr : (r.format.reserves.1 = true → aField w = 0) ∧ (r.format.reserves.2.1 = true → bField w = 0) ∧
      (r.format.reserves.2.2 = true → cField w = 0)) : decode w = .ok (r.make w) := by
  have hop : r.op = opField w := (findRow_some h).2
  simp only [decode, h, hop]
  rw [if_pos ((mask_test_iff r.format w).mpr hr)]

/-- A word whose row is found and that has a reserved bit set is refused (rule R77). -/
theorem decode_reserved {w : Word} {r : OpcodeRow} (h : findRow (opField w) = some r)
    (hr : ¬ ((r.format.reserves.1 = true → aField w = 0) ∧ (r.format.reserves.2.1 = true → bField w = 0) ∧
      (r.format.reserves.2.2 = true → cField w = 0))) : decode w = .error .reservedBit := by
  have hop : r.op = opField w := (findRow_some h).2
  simp only [decode, h, hop]
  rw [if_neg (fun e => hr ((mask_test_iff r.format w).mp e))]

/-- A word with no row is refused (rule R76). -/
theorem decode_illegal {w : Word} (h : findRow (opField w) = none) : decode w = .error .illegalOpcode := by
  simp only [decode, h]

end Sys2Proof
end

