-- ==== Sys2Proof/Laws/State.lean ====
section
/-! SUPPORT. One lemma per field per update of the state, so that no proof unfolds a record update. -/

namespace Sys2Proof.Machine

@[simp] theorem State.complete_blk (s : State) (v : Word) : (s.complete v).blk = s.blk := rfl
@[simp] theorem State.complete_st (s : State) (v : Word) : (s.complete v).st = s.st := rfl
@[simp] theorem State.complete_keybuf (s : State) (v : Word) : (s.complete v).keybuf = s.keybuf := rfl
@[simp] theorem State.complete_klen (s : State) (v : Word) : (s.complete v).klen = s.klen := rfl
@[simp] theorem State.complete_rk (s : State) (v : Word) : (s.complete v).rk = s.rk := rfl
@[simp] theorem State.complete_nr (s : State) (v : Word) : (s.complete v).nr = s.nr := rfl
@[simp] theorem State.complete_nk (s : State) (v : Word) : (s.complete v).nk = s.nk := rfl
@[simp] theorem State.complete_rkv (s : State) (v : Word) : (s.complete v).rkv = s.rkv := rfl
@[simp] theorem State.complete_xkey (s : State) (v : Word) : (s.complete v).xkey = s.xkey := rfl
@[simp] theorem State.complete_xklen (s : State) (v : Word) : (s.complete v).xklen = s.xklen := rfl
@[simp] theorem State.complete_xpos (s : State) (v : Word) : (s.complete v).xpos = s.xpos := rfl
@[simp] theorem State.complete_err (s : State) (v : Word) : (s.complete v).err = s.err := rfl
@[simp] theorem State.complete_fcmd (s : State) (v : Word) : (s.complete v).fcmd = s.fcmd := rfl
@[simp] theorem State.complete_inputs (s : State) (v : Word) : (s.complete v).inputs = s.inputs := rfl
@[simp] theorem State.complete_rsp (s : State) (v : Word) : (s.complete v).rsp = some ⟨true, v⟩ := rfl

@[simp] theorem State.faultEntry_blk (s : State) (e : FaultCode) (w : Word) : (s.faultEntry e w).blk = s.blk := rfl
@[simp] theorem State.faultEntry_st (s : State) (e : FaultCode) (w : Word) : (s.faultEntry e w).st = s.st := rfl
@[simp] theorem State.faultEntry_keybuf (s : State) (e : FaultCode) (w : Word) : (s.faultEntry e w).keybuf = s.keybuf := rfl
@[simp] theorem State.faultEntry_klen (s : State) (e : FaultCode) (w : Word) : (s.faultEntry e w).klen = s.klen := rfl
@[simp] theorem State.faultEntry_rk (s : State) (e : FaultCode) (w : Word) : (s.faultEntry e w).rk = s.rk := rfl
@[simp] theorem State.faultEntry_nr (s : State) (e : FaultCode) (w : Word) : (s.faultEntry e w).nr = s.nr := rfl
@[simp] theorem State.faultEntry_nk (s : State) (e : FaultCode) (w : Word) : (s.faultEntry e w).nk = s.nk := rfl
@[simp] theorem State.faultEntry_rkv (s : State) (e : FaultCode) (w : Word) : (s.faultEntry e w).rkv = s.rkv := rfl
@[simp] theorem State.faultEntry_xkey (s : State) (e : FaultCode) (w : Word) : (s.faultEntry e w).xkey = s.xkey := rfl
@[simp] theorem State.faultEntry_xklen (s : State) (e : FaultCode) (w : Word) : (s.faultEntry e w).xklen = s.xklen := rfl
@[simp] theorem State.faultEntry_xpos (s : State) (e : FaultCode) (w : Word) : (s.faultEntry e w).xpos = s.xpos := rfl
@[simp] theorem State.faultEntry_err (s : State) (e : FaultCode) (w : Word) : (s.faultEntry e w).err = e.code := rfl
@[simp] theorem State.faultEntry_fcmd (s : State) (e : FaultCode) (w : Word) : (s.faultEntry e w).fcmd = w := rfl
@[simp] theorem State.faultEntry_inputs (s : State) (e : FaultCode) (w : Word) : (s.faultEntry e w).inputs = s.inputs := rfl
@[simp] theorem State.faultEntry_rsp (s : State) (e : FaultCode) (w : Word) : (s.faultEntry e w).rsp = some ⟨false, zext8 e.code⟩ := rfl

@[simp] theorem State.refuse_blk (s : State) : (s.refuse).blk = s.blk := rfl
@[simp] theorem State.refuse_st (s : State) : (s.refuse).st = s.st := rfl
@[simp] theorem State.refuse_keybuf (s : State) : (s.refuse).keybuf = s.keybuf := rfl
@[simp] theorem State.refuse_klen (s : State) : (s.refuse).klen = s.klen := rfl
@[simp] theorem State.refuse_rk (s : State) : (s.refuse).rk = s.rk := rfl
@[simp] theorem State.refuse_nr (s : State) : (s.refuse).nr = s.nr := rfl
@[simp] theorem State.refuse_nk (s : State) : (s.refuse).nk = s.nk := rfl
@[simp] theorem State.refuse_rkv (s : State) : (s.refuse).rkv = s.rkv := rfl
@[simp] theorem State.refuse_xkey (s : State) : (s.refuse).xkey = s.xkey := rfl
@[simp] theorem State.refuse_xklen (s : State) : (s.refuse).xklen = s.xklen := rfl
@[simp] theorem State.refuse_xpos (s : State) : (s.refuse).xpos = s.xpos := rfl
@[simp] theorem State.refuse_err (s : State) : (s.refuse).err = s.err := rfl
@[simp] theorem State.refuse_fcmd (s : State) : (s.refuse).fcmd = s.fcmd := rfl
@[simp] theorem State.refuse_inputs (s : State) : (s.refuse).inputs = s.inputs := rfl
@[simp] theorem State.refuse_rsp (s : State) : (s.refuse).rsp = some ⟨false, zext8 s.err⟩ := rfl

@[simp] theorem State.setBlk_blk (s : State) (i : Fin 16) (v : Byte) : (s.setBlk i v).blk = s.blk.set i v := rfl
@[simp] theorem State.setBlk_st (s : State) (i : Fin 16) (v : Byte) : (s.setBlk i v).st = s.st := rfl
@[simp] theorem State.setBlk_keybuf (s : State) (i : Fin 16) (v : Byte) : (s.setBlk i v).keybuf = s.keybuf := rfl
@[simp] theorem State.setBlk_klen (s : State) (i : Fin 16) (v : Byte) : (s.setBlk i v).klen = s.klen := rfl
@[simp] theorem State.setBlk_rk (s : State) (i : Fin 16) (v : Byte) : (s.setBlk i v).rk = s.rk := rfl
@[simp] theorem State.setBlk_nr (s : State) (i : Fin 16) (v : Byte) : (s.setBlk i v).nr = s.nr := rfl
@[simp] theorem State.setBlk_nk (s : State) (i : Fin 16) (v : Byte) : (s.setBlk i v).nk = s.nk := rfl
@[simp] theorem State.setBlk_rkv (s : State) (i : Fin 16) (v : Byte) : (s.setBlk i v).rkv = s.rkv := rfl
@[simp] theorem State.setBlk_xkey (s : State) (i : Fin 16) (v : Byte) : (s.setBlk i v).xkey = s.xkey := rfl
@[simp] theorem State.setBlk_xklen (s : State) (i : Fin 16) (v : Byte) : (s.setBlk i v).xklen = s.xklen := rfl
@[simp] theorem State.setBlk_xpos (s : State) (i : Fin 16) (v : Byte) : (s.setBlk i v).xpos = s.xpos := rfl
@[simp] theorem State.setBlk_err (s : State) (i : Fin 16) (v : Byte) : (s.setBlk i v).err = s.err := rfl
@[simp] theorem State.setBlk_fcmd (s : State) (i : Fin 16) (v : Byte) : (s.setBlk i v).fcmd = s.fcmd := rfl
@[simp] theorem State.setBlk_inputs (s : State) (i : Fin 16) (v : Byte) : (s.setBlk i v).inputs = s.inputs := rfl
@[simp] theorem State.setBlk_rsp (s : State) (i : Fin 16) (v : Byte) : (s.setBlk i v).rsp = s.rsp := rfl

@[simp] theorem State.setSt_blk (s : State) (r c : Fin 4) (v : Byte) : (s.setSt r c v).blk = s.blk := rfl
@[simp] theorem State.setSt_st (s : State) (r c : Fin 4) (v : Byte) : (s.setSt r c v).st = s.st.set r (s.st[r].set c v) := rfl
@[simp] theorem State.setSt_keybuf (s : State) (r c : Fin 4) (v : Byte) : (s.setSt r c v).keybuf = s.keybuf := rfl
@[simp] theorem State.setSt_klen (s : State) (r c : Fin 4) (v : Byte) : (s.setSt r c v).klen = s.klen := rfl
@[simp] theorem State.setSt_rk (s : State) (r c : Fin 4) (v : Byte) : (s.setSt r c v).rk = s.rk := rfl
@[simp] theorem State.setSt_nr (s : State) (r c : Fin 4) (v : Byte) : (s.setSt r c v).nr = s.nr := rfl
@[simp] theorem State.setSt_nk (s : State) (r c : Fin 4) (v : Byte) : (s.setSt r c v).nk = s.nk := rfl
@[simp] theorem State.setSt_rkv (s : State) (r c : Fin 4) (v : Byte) : (s.setSt r c v).rkv = s.rkv := rfl
@[simp] theorem State.setSt_xkey (s : State) (r c : Fin 4) (v : Byte) : (s.setSt r c v).xkey = s.xkey := rfl
@[simp] theorem State.setSt_xklen (s : State) (r c : Fin 4) (v : Byte) : (s.setSt r c v).xklen = s.xklen := rfl
@[simp] theorem State.setSt_xpos (s : State) (r c : Fin 4) (v : Byte) : (s.setSt r c v).xpos = s.xpos := rfl
@[simp] theorem State.setSt_err (s : State) (r c : Fin 4) (v : Byte) : (s.setSt r c v).err = s.err := rfl
@[simp] theorem State.setSt_fcmd (s : State) (r c : Fin 4) (v : Byte) : (s.setSt r c v).fcmd = s.fcmd := rfl
@[simp] theorem State.setSt_inputs (s : State) (r c : Fin 4) (v : Byte) : (s.setSt r c v).inputs = s.inputs := rfl
@[simp] theorem State.setSt_rsp (s : State) (r c : Fin 4) (v : Byte) : (s.setSt r c v).rsp = s.rsp := rfl

@[simp] theorem State.present_blk (s : State) (w : Word) : (s.present w).blk = s.blk := rfl
@[simp] theorem State.present_st (s : State) (w : Word) : (s.present w).st = s.st := rfl
@[simp] theorem State.present_keybuf (s : State) (w : Word) : (s.present w).keybuf = s.keybuf := rfl
@[simp] theorem State.present_klen (s : State) (w : Word) : (s.present w).klen = s.klen := rfl
@[simp] theorem State.present_rk (s : State) (w : Word) : (s.present w).rk = s.rk := rfl
@[simp] theorem State.present_nr (s : State) (w : Word) : (s.present w).nr = s.nr := rfl
@[simp] theorem State.present_nk (s : State) (w : Word) : (s.present w).nk = s.nk := rfl
@[simp] theorem State.present_rkv (s : State) (w : Word) : (s.present w).rkv = s.rkv := rfl
@[simp] theorem State.present_xkey (s : State) (w : Word) : (s.present w).xkey = s.xkey := rfl
@[simp] theorem State.present_xklen (s : State) (w : Word) : (s.present w).xklen = s.xklen := rfl
@[simp] theorem State.present_xpos (s : State) (w : Word) : (s.present w).xpos = s.xpos := rfl
@[simp] theorem State.present_err (s : State) (w : Word) : (s.present w).err = s.err := rfl
@[simp] theorem State.present_fcmd (s : State) (w : Word) : (s.present w).fcmd = s.fcmd := rfl
@[simp] theorem State.present_inputs (s : State) (w : Word) : (s.present w).inputs = ⟨false, some w⟩ :: s.inputs := rfl
@[simp] theorem State.present_rsp (s : State) (w : Word) : (s.present w).rsp = s.rsp := rfl

@[simp] theorem State.resetEngine_blk (s : State) : (s.resetEngine).blk = State.reset.blk := rfl
@[simp] theorem State.resetEngine_st (s : State) : (s.resetEngine).st = State.reset.st := rfl
@[simp] theorem State.resetEngine_keybuf (s : State) : (s.resetEngine).keybuf = State.reset.keybuf := rfl
@[simp] theorem State.resetEngine_klen (s : State) : (s.resetEngine).klen = State.reset.klen := rfl
@[simp] theorem State.resetEngine_rk (s : State) : (s.resetEngine).rk = State.reset.rk := rfl
@[simp] theorem State.resetEngine_nr (s : State) : (s.resetEngine).nr = State.reset.nr := rfl
@[simp] theorem State.resetEngine_nk (s : State) : (s.resetEngine).nk = State.reset.nk := rfl
@[simp] theorem State.resetEngine_rkv (s : State) : (s.resetEngine).rkv = State.reset.rkv := rfl
@[simp] theorem State.resetEngine_xkey (s : State) : (s.resetEngine).xkey = State.reset.xkey := rfl
@[simp] theorem State.resetEngine_xklen (s : State) : (s.resetEngine).xklen = State.reset.xklen := rfl
@[simp] theorem State.resetEngine_xpos (s : State) : (s.resetEngine).xpos = State.reset.xpos := rfl
@[simp] theorem State.resetEngine_err (s : State) : (s.resetEngine).err = State.reset.err := rfl
@[simp] theorem State.resetEngine_fcmd (s : State) : (s.resetEngine).fcmd = State.reset.fcmd := rfl
@[simp] theorem State.resetEngine_inputs (s : State) : (s.resetEngine).inputs = s.inputs := rfl
@[simp] theorem State.resetEngine_rsp (s : State) : (s.resetEngine).rsp = State.reset.rsp := rfl

/-- Reset twice is reset once. -/
@[simp] theorem State.resetEngine_resetEngine (s : State) : s.resetEngine.resetEngine = s.resetEngine := rfl

/-- A response overwrites the one before it. -/
@[simp] theorem State.complete_complete (s : State) (v w : Word) : (s.complete v).complete w = s.complete w := rfl

end Sys2Proof.Machine
end

