-- ==== Sys2Proof/Laws/Ops.lean ====
section
/-! SUPPORT. What each shared operation can do, said once: byte order, matrices, operand checks, `command`, `undecodable`,
`takeInput`. -/

namespace Sys2Proof.Machine

/-! ## Byte order -/

/-- Byte `k` of a packed word is the `k`-th byte packed (rule R13). -/
theorem byteOf_pack (k : Fin 4) (b0 b1 b2 b3 : Byte) : byteOf k (pack b0 b1 b2 b3) = #v[b0, b1, b2, b3][k] := by
  fin_cases k
  · exact opField_packFields b0 b1 b2 b3
  · exact aField_packFields b0 b1 b2 b3
  · exact bField_packFields b0 b1 b2 b3
  · exact cField_packFields b0 b1 b2 b3

/-- A word is the pack of its four bytes (rule R13). -/
theorem pack_byteOf (w : Word) : pack (byteOf 0 w) (byteOf 1 w) (byteOf 2 w) (byteOf 3 w) = w := packFields_fields w

/-- `zext_32` keeps the number. -/
@[simp] theorem zext8_toNat (b : Byte) : (zext8 b).toNat = b.toNat := by
  have : b.toNat < 256 := b.isLt
  simp [zext8]; omega

/-- `zext_32` keeps the number. -/
@[simp] theorem zext16_toNat (h : Char16) : (zext16 h).toNat = h.toNat := by
  have : h.toNat < 65536 := h.isLt
  simp [zext16]; omega

/-- The low byte of a zero-extended byte is that byte. -/
@[simp] theorem zext8_low (b : Byte) : (zext8 b).setWidth 8 = b := by
  apply BitVec.eq_of_toNat_eq; simpa [BitVec.toNat_setWidth] using b.isLt

/-- The low half of a zero-extended character is that character. -/
@[simp] theorem zext16_low (h : Char16) : (zext16 h).setWidth 16 = h := by
  apply BitVec.eq_of_toNat_eq; simpa [BitVec.toNat_setWidth] using h.isLt

/-! ## Matrices -/

/-- A cell of a built matrix. -/
@[simp] theorem Matrix.cell_build (f : Fin 4 → Fin 4 → Byte) (r c : Fin 4) : (Matrix.build f).cell r c = f r c := by
  simp [Matrix.cell, Matrix.build]

/-- Matrices with equal cells are equal. -/
theorem Matrix.ext_cell {m n : Matrix} (h : ∀ r c, m.cell r c = n.cell r c) : m = n := by
  apply Vector.ext; intro i hi
  apply Vector.ext; intro j hj
  exact h ⟨i, hi⟩ ⟨j, hj⟩

/-- A matrix is built from its cells. -/
@[simp] theorem Matrix.build_cell (m : Matrix) : Matrix.build (fun r c => m.cell r c) = m :=
  Matrix.ext_cell fun r c => by simp

/-- Reading a cell after `ST[r][c] <- v`. -/
theorem State.cell_setSt (s : State) (r c r' c' : Fin 4) (v : Byte) :
    Matrix.cell (s.setSt r c v).st r' c' = if r' = r ∧ c' = c then v else Matrix.cell s.st r' c' := by
  simp only [State.setSt_st, Matrix.cell, Fin.getElem_fin, Vector.getElem_set, Fin.ext_iff]
  by_cases h : r.val = r'.val
  · by_cases h2 : c.val = c'.val
    · simp [h, h2]
    · have h3 : ¬ c'.val = c.val := fun e => h2 e.symm
      simp [h, h2, h3]
  · have h3 : ¬ r'.val = r.val := fun e => h e.symm
    simp [h, h3]

/-- Reading a cell after `BLK[i] <- v`. -/
theorem State.blk_setBlk (s : State) (i j : Fin 16) (v : Byte) :
    (s.setBlk i v).blk[j] = if j = i then v else s.blk[j] := by
  simp only [State.setBlk_blk, Fin.getElem_fin, Vector.getElem_set, Fin.ext_iff, eq_comm]

/-! ## Operand and flag checks -/

@[simp] theorem checkIndex_of_lt {n : Nat} {a : Byte} (h : a.toNat < n) : checkIndex n a = .ok ⟨a.toNat, h⟩ := by
  simp [checkIndex, h]

theorem checkIndex_of_ge {n : Nat} {a : Byte} (h : n ≤ a.toNat) : checkIndex n a = .error .index := by
  simp [checkIndex, Nat.not_lt.mpr h]

@[simp] theorem checkLimit_of_lt {n : Nat} {a : Byte} (h : a.toNat < n) : checkLimit n a = .ok () := by
  simp [checkLimit, h]

theorem checkLimit_of_ge {n : Nat} {a : Byte} (h : n ≤ a.toNat) : checkLimit n a = .error .index := by
  simp [checkLimit, Nat.not_lt.mpr h]

@[simp] theorem requireKey_of_valid {s : State} (h : s.rkv = true) : requireKey s = .ok () := by simp [requireKey, h]

theorem requireKey_of_invalid {s : State} (h : s.rkv = false) : requireKey s = .error .noKey := by simp [requireKey, h]

/-- An index check either names the cell or raises `ERR_INDEX`. -/
theorem checkIndex_cases (n : Nat) (a : Byte) :
    (∃ h : a.toNat < n, checkIndex n a = .ok ⟨a.toNat, h⟩) ∨ (n ≤ a.toNat ∧ checkIndex n a = .error .index) := by
  by_cases h : a.toNat < n
  · exact .inl ⟨h, checkIndex_of_lt h⟩
  · exact .inr ⟨Nat.not_lt.mp h, checkIndex_of_ge (Nat.not_lt.mp h)⟩

/-- A rule goes on after a check that passed. -/
@[simp] theorem rule_ok_bind {α β : Type} (a : α) (f : α → Except FaultCode β) : (Except.ok a >>= f) = f a := rfl

/-- A rule stops at a check that raised a fault. -/
@[simp] theorem rule_error_bind {α β : Type} (e : FaultCode) (f : α → Except FaultCode β) :
    ((Except.error e : Except FaultCode α) >>= f) = .error e := rfl

/-! ## Running a command -/

/-- In the faulted state a command is refused (rule R237). -/
theorem command_faulted {i : Instr} {s : State} {r : Rule} (h : s.err ≠ 0) : command i s r = .next s.refuse := by
  unfold command; rw [if_pos h]

/-- An unfaulted engine runs the command's own rule. -/
theorem command_ok {i : Instr} {s s' : State} {v : Word} (h : s.err = 0) :
    command i s (.ok (s', v)) = .next (s'.complete v) := by simp [command, h]

/-- A fault of the rule is taken, with none of the rule's writes (rule R236). -/
theorem command_error {i : Instr} {s : State} {e : FaultCode} (h : s.err = 0) :
    command i s (.error e) = .next (s.faultEntry e (encode i)) := by simp [command, h]

/-- `command` always answers a next state (rule R60). -/
theorem command_next (i : Instr) (s : State) (r : Rule) : ∃ t, command i s r = .next t := by
  unfold command
  split
  · exact ⟨_, rfl⟩
  · split <;> exact ⟨_, rfl⟩

/-- All that `command` can do. -/
theorem command_cases {i : Instr} {s t : State} {r : Rule} (h : command i s r = .next t) :
    (s.err ≠ 0 ∧ t = s.refuse) ∨
    (s.err = 0 ∧ ∃ s' v, r = .ok (s', v) ∧ t = s'.complete v) ∨
    (s.err = 0 ∧ ∃ e, r = .error e ∧ t = s.faultEntry e (encode i)) := by
  unfold command at h
  split at h
  · cases h; exact .inl ⟨‹_›, rfl⟩
  · rename_i h0
    have h0 : s.err = 0 := by simpa using h0
    split at h
    · cases h; exact .inr (.inl ⟨h0, _, _, rfl, rfl⟩)
    · cases h; exact .inr (.inr ⟨h0, _, rfl, rfl⟩)

/-- All that a word which is no command can do (rules R76, R77, R237). -/
theorem undecodable_eq (e : DecodeError) (w : Word) (s : State) :
    undecodable e w s = .next (if s.err ≠ 0 then s.refuse else s.faultEntry (faultOfDecodeError e) w) := by
  unfold undecodable; split <;> rfl

/-- A faulted engine refuses a word which is no command (rule R237). -/
theorem undecodable_faulted {e : DecodeError} {w : Word} {s : State} (h : s.err ≠ 0) :
    undecodable e w s = .next s.refuse := by unfold undecodable; rw [if_pos h]

/-- An unfaulted engine takes the fault of a word which is no command (rules R76, R77, R236). -/
theorem undecodable_unfaulted {e : DecodeError} {w : Word} {s : State} (h : s.err = 0) :
    undecodable e w s = .next (s.faultEntry (faultOfDecodeError e) w) := by
  unfold undecodable; rw [if_neg (not_not_intro h)]

/-- The engine takes the word presented next (rule R70). -/
theorem takeInput_present (s : State) (w : Word) : takeInput (s.present w) = (.command w, { s with rsp := none }) := rfl

/-- No fault code is 0, and none is above 6 (rule R231). -/
theorem FaultCode.code_range (e : FaultCode) : 1 ≤ e.code.toNat ∧ e.code.toNat ≤ 6 := by cases e <;> decide

end Sys2Proof.Machine
end

