-- ==== Sys2Proof/Laws/Exec.lean ====
section
/-! SUPPORT. What running one command and taking one step can do, said once for all thirty commands (rules R60, R90, R236, R237). -/

namespace Sys2Proof.Machine

/-- `CSRR` of an existing CSR executes in every state (rules R92, R237). -/
theorem exec_csrr_of_lt {a : Byte} (s : State) (h : a.toNat < 5) :
    exec (.csrr a) s = .next (s.complete (csr s ⟨a.toNat, h⟩)) := by
  simp only [exec, execCsrr, checkIndex_of_lt h]

/-- `CSRR` past the last CSR is a command that raises `ERR_INDEX` (rules R62, R92). -/
theorem exec_csrr_of_ge {a : Byte} (s : State) (h : 5 ≤ a.toNat) :
    exec (.csrr a) s = command (.csrr a) s (.error .index) := by
  simp only [exec, execCsrr, checkIndex_of_ge h]

/-- A command is `SRST`, a `CSRR` of an existing CSR, or runs its own rule under the faulted-state check (rules R90, R237). -/
theorem exec_form (i : Instr) (s : State) :
    (i = .srst ∧ exec i s = .next (s.resetEngine.complete 0)) ∨
    (∃ (a : Byte) (h : a.toNat < 5), i = .csrr a ∧ exec i s = .next (s.complete (csr s ⟨a.toNat, h⟩))) ∨
    (∃ r : Rule, exec i s = command i s r) := by
  cases i
  case srst => exact .inl ⟨rfl, rfl⟩
  case csrr a =>
    by_cases h : a.toNat < 5
    · exact .inr (.inl ⟨a, h, rfl, exec_csrr_of_lt s h⟩)
    · exact .inr (.inr ⟨_, exec_csrr_of_ge s (Nat.not_lt.mp h)⟩)
  all_goals
    refine .inr (.inr ?_)
    simp only [exec, execNop, execKclr, execKpush, execKexp, execRkrd, execBwr, execBrd, execTost, execFrst, execSwr, execSrd,
      execSubb, execIsubb, execShr, execIshr, execMixc, execImixc, execArk, execEnc, execDec, execGfmul, execSbox, execIsbox,
      execRcon, execXkclr, execXkpush, execXrst, execXstep]
    exact ⟨_, rfl⟩

/-- Every command answers a next state (rule R60). -/
theorem exec_next (i : Instr) (s : State) : ∃ t, exec i s = .next t := by
  rcases exec_form i s with ⟨_, h⟩ | ⟨_, _, _, h⟩ | ⟨r, h⟩
  · exact ⟨_, h⟩
  · exact ⟨_, h⟩
  · rw [h]; exact command_next i s r

/-- All that a command can do, by kind: reset, a CSR read, a refusal, an execution, a fault. -/
theorem exec_cases {i : Instr} {s t : State} (h : exec i s = .next t) :
    (i = .srst ∧ t = s.resetEngine.complete 0) ∨
    (∃ (a : Byte) (ha : a.toNat < 5), i = .csrr a ∧ t = s.complete (csr s ⟨a.toNat, ha⟩)) ∨
    (s.err ≠ 0 ∧ t = s.refuse) ∨
    (s.err = 0 ∧ ∃ s' v, exec i s = command i s (.ok (s', v)) ∧ t = s'.complete v) ∨
    (s.err = 0 ∧ ∃ e, t = s.faultEntry e (encode i)) := by
  rcases exec_form i s with ⟨hi, h'⟩ | ⟨a, ha, hi, h'⟩ | ⟨r, h'⟩
  · rw [h'] at h; cases h; exact .inl ⟨hi, rfl⟩
  · rw [h'] at h; cases h; exact .inr (.inl ⟨a, ha, hi, rfl⟩)
  · rw [h'] at h
    rcases command_cases h with h | ⟨h0, s', v, rfl, ht⟩ | ⟨h0, e, _, ht⟩
    · exact .inr (.inr (.inl h))
    · exact .inr (.inr (.inr (.inl ⟨h0, s', v, h', ht⟩)))
    · exact .inr (.inr (.inr (.inr ⟨h0, e, ht⟩)))

/-- A step that takes a presented command word runs it (rules R70, R90). -/
theorem step_present_ok {w : Word} {i : Instr} (s : State) (h : decode w = .ok i) :
    step (s.present w) = exec i { s with rsp := none } := by
  simp only [step, takeInput_present, h]

/-- A step that takes a presented word which is no command refuses it or faults (rules R76, R77, R237). -/
theorem step_present_error {w : Word} {e : DecodeError} (s : State) (h : decode w = .error e) :
    step (s.present w) = undecodable e w { s with rsp := none } := by
  simp only [step, takeInput_present, h]

/-- All that a step can do: nothing, reset, one command, or one word that is no command. -/
theorem step_cases (s : State) :
    (∃ rest, step s = .next { s with inputs := rest, rsp := none }) ∨
    (∃ rest, step s = .next { s with inputs := rest, rsp := none }.resetEngine) ∨
    (∃ rest i, step s = exec i { s with inputs := rest, rsp := none }) ∨
    (∃ rest w e, decode w = .error e ∧ step s = undecodable e w { s with inputs := rest, rsp := none }) := by
  unfold step takeInput
  rcases hs : s.inputs with _ | ⟨⟨rst, cmd⟩, rest⟩
  · exact .inl ⟨[], rfl⟩
  · cases rst
    · cases cmd with
      | none => exact .inl ⟨rest, rfl⟩
      | some w =>
        simp only [Bool.false_eq_true, if_false]
        cases hd : decode w with
        | ok i => exact .inr (.inr (.inl ⟨rest, i, rfl⟩))
        | error e => exact .inr (.inr (.inr ⟨rest, w, e, hd, rfl⟩))
    · exact .inr (.inl ⟨rest, rfl⟩)

end Sys2Proof.Machine
end

