-- ==== Sys2Proof/Laws/KeySchedule.lean ====
section
/-! SUPPORT. Lengths in the key schedule, and what appending words leaves alone (rules R140, R143, R146). -/

namespace Sys2Proof.Machine

/-- An effective key has 16, 24 or 32 bytes (rules R140, R143). -/
theorem effectiveKey_length (key : List Byte) :
    (effectiveKey key).length = 16 ∨ (effectiveKey key).length = 24 ∨ (effectiveKey key).length = 32 := by
  unfold effectiveKey
  split
  · simp [standardLength] at *; omega
  · simp; omega

@[simp] theorem keyWords_length (ek : List Byte) (nk : Nat) : (keyWords ek nk).length = nk := by simp [keyWords]

/-- Appending `n` words makes the list `n` longer. -/
@[simp] theorem extendWords_length (nk n : Nat) (w : List Word) : (extendWords nk n w).length = w.length + n := by
  induction n generalizing w with
  | zero => rfl
  | succ n ih => simp [extendWords, ih]; omega

/-- Appending words keeps those there are. -/
theorem extendWords_getD_of_lt {nk n i : Nat} {w : List Word} (h : i < w.length) :
    (extendWords nk n w).getD i 0 = w.getD i 0 := by
  induction n generalizing w with
  | zero => rfl
  | succ n ih =>
    rw [extendWords, ih (by simp; omega)]
    simp [List.getD_eq_getElem?_getD, List.getElem?_append_left h]

end Sys2Proof.Machine
end

