-- ==== Sys2Proof/Laws/PerInstr.lean ====
section
/-! SUPPORT. One family over all commands: the word `encode` gives is a command by rules R72, R74 and R76 themselves, which
`wellFormedWord` states apart from the decoder's rows. -/

namespace Sys2Proof.Laws

/-- A packed word is a command when its opcode is legal and its reserved fields are 0. -/
theorem wellFormed_packFields {op a b c : Byte} (ra rb rc : Byte) (hop : illegalOpcode op.toNat = false)
    (hr : reservedBits op.toNat = packFields 0 ra rb rc) (ha : a &&& ra = 0) (hb : b &&& rb = 0) (hc : c &&& rc = 0) :
    wellFormedWord (packFields op a b c) = true := by
  have hdiv : (packFields op a b c).toNat / 2 ^ 24 = op.toNat := by
    have := a.isLt; have := b.isLt; have := c.isLt
    rw [packFields_toNat]; omega
  simp only [wellFormedWord, wordOpcodeLegal, wordReservedClear, hdiv, hop, hr, packFields_and, ha, hb, hc]
  simp [packFields]

namespace EncodesWellFormedWord

/-- The word of `i` has a legal opcode and no reserved bit set (rules R72, R74, R77). -/
def Statement (i : Instr) : Prop := wellFormedWord (encode i) = true

theorem nop : Statement .nop := by unfold Statement; decide
theorem srst : Statement .srst := by unfold Statement; decide
theorem csrr (a : Byte) : Statement (.csrr a) :=
  wellFormed_packFields 0 0xFF 0xFF rfl rfl (by simp) (by simp) (by simp)
theorem kclr : Statement .kclr := by unfold Statement; decide
theorem kpush (c : Byte) : Statement (.kpush c) :=
  wellFormed_packFields 0xFF 0xFF 0 rfl rfl (by simp) (by simp) (by simp)
theorem kexp : Statement .kexp := by unfold Statement; decide
theorem rkrd (a : Byte) : Statement (.rkrd a) :=
  wellFormed_packFields 0 0xFF 0xFF rfl rfl (by simp) (by simp) (by simp)
theorem bwr (a c : Byte) : Statement (.bwr a c) :=
  wellFormed_packFields 0 0xFF 0 rfl rfl (by simp) (by simp) (by simp)
theorem brd (a : Byte) : Statement (.brd a) :=
  wellFormed_packFields 0 0xFF 0xFF rfl rfl (by simp) (by simp) (by simp)
theorem tost : Statement .tost := by unfold Statement; decide
theorem frst : Statement .frst := by unfold Statement; decide
theorem swr (a b c : Byte) : Statement (.swr a b c) :=
  wellFormed_packFields 0 0 0 rfl rfl (by simp) (by simp) (by simp)
theorem srd (a b : Byte) : Statement (.srd a b) :=
  wellFormed_packFields 0 0 0xFF rfl rfl (by simp) (by simp) (by simp)
theorem subb : Statement .subb := by unfold Statement; decide
theorem isubb : Statement .isubb := by unfold Statement; decide
theorem shr : Statement .shr := by unfold Statement; decide
theorem ishr : Statement .ishr := by unfold Statement; decide
theorem mixc : Statement .mixc := by unfold Statement; decide
theorem imixc : Statement .imixc := by unfold Statement; decide
theorem ark (a : Byte) : Statement (.ark a) :=
  wellFormed_packFields 0 0xFF 0xFF rfl rfl (by simp) (by simp) (by simp)
theorem enc : Statement .enc := by unfold Statement; decide
theorem dec : Statement .dec := by unfold Statement; decide
theorem gfmul (a c : Byte) : Statement (.gfmul a c) :=
  wellFormed_packFields 0 0xFF 0 rfl rfl (by simp) (by simp) (by simp)
theorem sbox (c : Byte) : Statement (.sbox c) :=
  wellFormed_packFields 0xFF 0xFF 0 rfl rfl (by simp) (by simp) (by simp)
theorem isbox (c : Byte) : Statement (.isbox c) :=
  wellFormed_packFields 0xFF 0xFF 0 rfl rfl (by simp) (by simp) (by simp)
theorem rcon (a : Byte) : Statement (.rcon a) :=
  wellFormed_packFields 0 0xFF 0xFF rfl rfl (by simp) (by simp) (by simp)
theorem xkclr : Statement .xkclr := by unfold Statement; decide
theorem xkpush (imm16 : Char16) : Statement (.xkpush imm16) := by
  change wellFormedWord (packImm 0x61 imm16) = true
  rw [packImm_eq]
  exact wellFormed_packFields 0xFF 0 0 rfl rfl (by simp) (by simp) (by simp)
theorem xrst : Statement .xrst := by unfold Statement; decide
theorem xstep (imm16 : Char16) : Statement (.xstep imm16) := by
  change wellFormedWord (packImm 0x63 imm16) = true
  rw [packImm_eq]
  exact wellFormed_packFields 0xFF 0 0 rfl rfl (by simp) (by simp) (by simp)

end EncodesWellFormedWord

end Sys2Proof.Laws
end

