-- ==== Sys2Proof/Laws/Rounds.lean ====
section
/-! SUPPORT. Each block mapping and round step cell by cell, so that no proof unfolds a matrix (rules R130, R131, R160 to R170). -/

namespace Sys2Proof.Machine

@[simp] theorem cell_toState (b : Block) (r c : Fin 4) : (toState b).cell r c = b[4 * c.val + r.val] := by simp [toState]

@[simp] theorem fromState_getElem (m : Matrix) (i : Nat) (h : i < 16) :
    (fromState m)[i] = m.cell ⟨i % 4, by omega⟩ ⟨i / 4, by omega⟩ := by simp [fromState]

@[simp] theorem cell_subBytes (m : Matrix) (r c : Fin 4) : (subBytes m).cell r c = sbox (m.cell r c) := by simp [subBytes]

@[simp] theorem cell_invSubBytes (m : Matrix) (r c : Fin 4) : (invSubBytes m).cell r c = invSbox (m.cell r c) := by
  simp [invSubBytes]

@[simp] theorem cell_shiftRows (m : Matrix) (r c : Fin 4) : (shiftRows m).cell r c = m.cell r (c + r) := by simp [shiftRows]

@[simp] theorem cell_invShiftRows (m : Matrix) (r c : Fin 4) : (invShiftRows m).cell r c = m.cell r (c - r) := by
  simp [invShiftRows]

@[simp] theorem cell_rotatedRows (first : Vector Byte 4) (r k : Fin 4) : (rotatedRows first).cell r k = first[k - r] := by
  simp [rotatedRows]

theorem cell_mulColumns (k m : Matrix) (r c : Fin 4) :
    (mulColumns k m).cell r c =
      gfmul (k.cell r 0) (m.cell 0 c) ^^^ gfmul (k.cell r 1) (m.cell 1 c) ^^^ gfmul (k.cell r 2) (m.cell 2 c) ^^^
        gfmul (k.cell r 3) (m.cell 3 c) := by simp [mulColumns]

@[simp] theorem cell_addRoundKey (m : Matrix) (k : Vector Word 4) (r c : Fin 4) :
    (addRoundKey m k).cell r c = m.cell r c ^^^ byteOf r k[c] := by simp [addRoundKey]

/-- Word `j` of round key `k` is cell `4k + j` of the store (rule R147). -/
theorem roundKey_getElem (rk : Vector Word 60) (k : Nat) (j : Fin 4) (h : 4 * k + j.val < 60) :
    (roundKey rk k)[j] = rk[4 * k + j.val] := by
  simp [roundKey, List.getD_eq_getElem?_getD, h]

end Sys2Proof.Machine
end

