-- ==== Sys2Proof/Laws/Transaction.lean ====
section
/-! SUPPORT. One transaction and sequences of them, in terms of `exec` (rules R63, R70). -/

namespace Sys2Proof.Machine

/-- A transaction with a command's word is that command run with no response present. -/
theorem transact_command {i : Instr} {s t : State} {r : Response} (hd : decode (encode i) = .ok i)
    (h : exec i { s with rsp := none } = .next t) (hr : t.rsp = some r) : transact s (encode i) = some (t, r) := by
  simp [transact, step_present_ok s hd, h, hr]

@[simp] theorem runCommands_nil (s : State) : runCommands s [] = some (s, []) := rfl

/-- A sequence is its first command, then the rest from the state that one leaves. -/
theorem runCommands_cons {i : Instr} {is : List Instr} {s t u : State} {r : Response} {rs : List Response}
    (h : transact s (encode i) = some (t, r)) (hs : runCommands t is = some (u, rs)) :
    runCommands s (i :: is) = some (u, r :: rs) := by
  simp only [runCommands, List.map_cons, runWords] at hs ⊢
  simp only [h, hs]

/-- Two sequences one after the other. -/
theorem runCommands_append {is js : List Instr} {s t u : State} {rs rs' : List Response}
    (h : runCommands s is = some (t, rs)) (h' : runCommands t js = some (u, rs')) :
    runCommands s (is ++ js) = some (u, rs ++ rs') := by
  induction is generalizing s rs with
  | nil => cases h; exact h'
  | cons i is ih =>
    simp only [runCommands, List.map_cons, runWords] at h
    cases ht : transact s (encode i) with
    | none => simp [ht] at h
    | some p =>
      obtain ⟨v, r⟩ := p
      simp only [ht] at h
      cases hw : runWords v (is.map encode) with
      | none => simp [hw] at h
      | some q =>
        obtain ⟨w, rs₁⟩ := q
        simp only [hw, Option.some.injEq, Prod.mk.injEq] at h
        obtain ⟨rfl, rfl⟩ := h
        exact runCommands_cons ht (ih hw)

end Sys2Proof.Machine
end

