-- ==== Sys2Proof/Laws/Wire.lean ====
section
/-! SUPPORT. Splitting wire text on spaces, and when a token or a whole text does not parse (rules R211, R218). -/

namespace Sys2Proof.Machine.Contract

/-- A piece without spaces is one token. -/
theorem splitSpaces_of_no_space {t : List Nat} (h : ∀ c ∈ t, c ≠ space) : splitSpaces t = [t] := by
  induction t with
  | nil => rfl
  | cons c cs ih =>
    rw [splitSpaces, if_neg (h c (by simp)), ih fun d hd => h d (by simp [hd])]

/-- Splitting always gives a token. -/
theorem splitSpaces_ne_nil (t : List Nat) : splitSpaces t ≠ [] := by
  cases t with
  | nil => simp [splitSpaces]
  | cons c cs =>
    rw [splitSpaces]
    split
    · simp
    · split <;> simp

/-- A space ends the tokens before it and begins those after it. -/
theorem splitSpaces_append_space (t u : List Nat) : splitSpaces (t ++ space :: u) = splitSpaces t ++ splitSpaces u := by
  induction t with
  | nil => simp [splitSpaces]
  | cons c cs ih =>
    simp only [List.cons_append, splitSpaces]
    split
    · rw [ih]; rfl
    · rw [ih]
      cases h : splitSpaces cs with
      | nil => exact absurd h (splitSpaces_ne_nil cs)
      | cons a as => rfl

/-- No token holds a space. -/
theorem splitSpaces_no_space {t : List Nat} : ∀ token ∈ splitSpaces t, ∀ c ∈ token, c ≠ space := by
  induction t with
  | nil => simp [splitSpaces]
  | cons d ds ih =>
    rw [splitSpaces]
    split
    · simpa using ih
    · rename_i hd
      cases h : splitSpaces ds with
      | nil => exact absurd h (splitSpaces_ne_nil ds)
      | cons a as =>
        rw [h] at ih
        simp only [List.forall_mem_cons] at ih ⊢
        exact ⟨⟨hd, ih.1⟩, ih.2⟩

/-- The text is its tokens joined by single spaces. -/
theorem intercalate_splitSpaces (t : List Nat) : List.intercalate [space] (splitSpaces t) = t := by
  induction t with
  | nil => rfl
  | cons c cs ih =>
    rw [splitSpaces]
    cases h : splitSpaces cs with
    | nil => exact absurd h (splitSpaces_ne_nil cs)
    | cons a as =>
      rw [h] at ih
      split
      · rename_i hc; simp [hc, ← ih, List.intercalate]
      · cases as with
        | nil => simpa [List.intercalate] using ih
        | cons b bs => simpa [List.intercalate] using ih

/-- What is kept of the tokens is all but some empty ones at the end, and the last one kept is not empty. -/
theorem tokens_spec (t : List Nat) :
    (∃ n, splitSpaces t = tokens t ++ List.replicate n []) ∧ ∀ token ∈ (tokens t).getLast?, token ≠ [] := by
  unfold tokens
  generalize splitSpaces t = l
  refine ⟨⟨(l.reverse.takeWhile List.isEmpty).length, ?_⟩, ?_⟩
  · have hr := List.takeWhile_append_dropWhile (p := List.isEmpty) (l := l.reverse)
    have he : l.reverse.takeWhile List.isEmpty = List.replicate (l.reverse.takeWhile List.isEmpty).length [] :=
      List.eq_replicate_iff.mpr ⟨rfl, fun b hb => by simpa using List.mem_takeWhile_imp hb⟩
    have h := congrArg List.reverse hr
    rw [List.reverse_append, List.reverse_reverse] at h
    conv_lhs => rw [← h, he]
    rw [List.reverse_replicate]
  · intro token h e
    rw [List.getLast?_reverse] at h
    have := List.head?_dropWhile_not List.isEmpty l.reverse
    rw [Option.mem_def.mp h, e] at this
    simp at this

/-- A text does not parse when some token of it does not. -/
theorem parseTokens_eq_none_iff (max : Nat) (t : List Nat) :
    parseTokens max t = none ↔ ∃ token ∈ tokens t, parseBounded max token = none := by
  unfold parseTokens
  generalize tokens t = l
  induction l with
  | nil => simp
  | cons a as ih =>
    rw [List.mapM_cons]
    cases h : parseBounded max a with
    | none => simp [h]
    | some n =>
      cases h' : List.mapM (parseBounded max) as with
      | none => simpa [h, h'] using ih.mp h'
      | some ns =>
        have hs : ∀ x ∈ as, parseBounded max x ≠ none := fun x hx e => by simp [h'] at ih; exact ih x hx e
        simpa [h, h'] using hs

end Sys2Proof.Machine.Contract
end

