-- ==== Sys2Proof/Tests/Slice0.lean ====
section
/-! SUPPORT. Tests: words written out from the spec's encodings, ill-formed words, one step of each command with the values of
95_test_vectors.md and the rules' own examples, and for each statement a state and operands that meet its hypotheses. -/

section

set_option Elab.async false

open Sys2Proof Sys2Proof.Machine

/-! ## Helpers -/

/-- The state after one step that takes the word `w`. -/
def Slice0.after (s : State) (w : Word) : Option State :=
  match step (s.present w) with
  | .next t => some t
  | .fault _ => none
  | .refused _ => none

/-- The state after one step with the inputs as they stand. -/
def Slice0.stepped (s : State) : Option State :=
  match step s with
  | .next t => some t
  | .fault _ => none
  | .refused _ => none

/-- The response of one step that takes the word `w`. -/
def Slice0.response (s : State) (w : Word) : Option Response := (Slice0.after s w).bind State.rsp

/-- The small pieces of a state: every scalar, the ports, and three cells. -/
def Slice0.scalars (t : State) : List Nat × List PortInput × Option Response :=
  ([t.klen.toNat, t.nr.toNat, t.nk.toNat, t.rkv.toNat, t.xklen.val, t.xpos.val, t.err.toNat, t.fcmd.toNat, t.blk[0].toNat,
    t.rk[4].toNat, t.xkey[0].toNat], t.inputs, t.rsp)

/-- Sixteen bytes written as 32 hexadecimal digits, first byte first. -/
def Slice0.hex (n : Nat) : Block := Vector.ofFn fun i => BitVec.ofNat 8 (n / 256 ^ (15 - i.val))

/-- Table T30 of 95_test_vectors.md, round keys 0 to 4. -/
def Slice0.wordsA : List Word :=
  [0x00010203, 0x04050607, 0x08090a0b, 0x0c0d0e0f, 0xd6aa74fd, 0xd2af72fa, 0xdaa678f1, 0xd6ab76fe, 0xb692cf0b, 0x643dbdf1,
   0xbe9bc500, 0x6830b3fe, 0xb6ff744e, 0xd2c2c9bf, 0x6c590cbf, 0x0469bf41, 0x47f7f7bc, 0x95353e03, 0xf96c32bc, 0xfd058dfd]

/-- Table T30, round keys 5 to 10. -/
def Slice0.wordsB : List Word :=
  [0x3caaa3e8, 0xa99f9deb, 0x50f3af57, 0xadf622aa, 0x5e390f7d, 0xf7a69296, 0xa7553dc1, 0x0aa31f6b, 0x14f9701a, 0xe35fe28c,
   0x440adf4d, 0x4ea9c026, 0x47438735, 0xa41c65b9, 0xe016baf4, 0xaebf7ad2, 0x549932d1, 0xf0855768, 0x1093ed9c, 0xbe2c974e,
   0x13111d7f, 0xe3944a17, 0xf307a78b, 0x4d2b30c5]

/-- Table T30 as the store holds it after reset and `KEXP`. -/
def Slice0.rk16 : Vector Word 60 := Vector.ofFn fun i => (Slice0.wordsA ++ Slice0.wordsB).getD i.val 0

/-- The bytes `00 01 .. 0f` in the key store. -/
def Slice0.key16 : State :=
  { State.reset with keybuf := Vector.ofFn fun i => if i.val < 16 then BitVec.ofNat 8 i.val else 0, klen := 16 }

/-- The state after reset and "key16" of T50, its round keys from T30. -/
def Slice0.keyed : State := { Slice0.key16 with rk := Slice0.rk16, nr := 10, nk := 4, rkv := true }

/-- The known vector's block, S4. -/
def Slice0.plain : Block := Slice0.hex 0x00112233445566778899aabbccddeeff

/-- The known vector's result, S4. -/
def Slice0.secret : Block := Slice0.hex 0x69c4e0d86a7b0430d8cdb78070b4c55a

/-- The reset state with `ST` the matrix of a block. -/
def Slice0.withSt (n : Nat) : State := { Slice0.keyed with st := toState (Slice0.hex n) }

/-- The state matrix after one step, as block bytes. -/
def Slice0.stAfter (n : Nat) (w : Word) : Option Block := (Slice0.after (Slice0.withSt n) w).map fun t => fromState t.st

/-- An XOR key "key" loaded, text position 1. -/
def Slice0.xkeyed : State :=
  { State.reset with xkey := ((State.reset.xkey.set 0 0x6b).set 1 0x65).set 2 0x79, xklen := 3, xpos := 1 }

/-- A faulted engine: `ENC` was issued with no key (F18). -/
def Slice0.faulted : State := { State.reset with err := 4, fcmd := 0x40000000 }

open Slice0

/-! ## WellFormed: each check refuses an ill-formed word, and passes a command's word -/

theorem test_wordOpcodeLegal_refuses : wordOpcodeLegal 0x99FFFFFF = false ∧ wellFormedWord 0x99FFFFFF = false := by decide
theorem test_wordReservedClear_refuses : wordReservedClear 0x40000001 = false ∧ wellFormedWord 0x40000001 = false := by decide
theorem test_wellFormedWord_passes : wellFormedWord 0x50570083 = true ∧ wellFormedWord 0x24FFFFFF = true := by decide

/-! ## Decoding: words written out from rules R71, R72, R74 and the programs of 95_test_vectors.md -/

theorem test_decode_control :
    decode 0x00000000 = .ok .nop ∧ decode 0x01000000 = .ok .srst ∧ decode 0x02030000 = .ok (.csrr 3) := by decide +kernel
theorem test_decode_key :
    decode 0x10000000 = .ok .kclr ∧ decode 0x110000AB = .ok (.kpush 0xab) ∧ decode 0x12000000 = .ok .kexp ∧
    decode 0x132B0000 = .ok (.rkrd 43) := by decide +kernel
theorem test_decode_block :
    decode 0x200A00AA = .ok (.bwr 10 0xaa) ∧ decode 0x210F0000 = .ok (.brd 15) ∧ decode 0x22000000 = .ok .tost ∧
    decode 0x23000000 = .ok .frst ∧ decode 0x2402037C = .ok (.swr 2 3 0x7c) ∧ decode 0x25000100 = .ok (.srd 0 1) := by
  decide +kernel
theorem test_decode_steps :
    decode 0x30000000 = .ok .subb ∧ decode 0x31000000 = .ok .isubb ∧ decode 0x32000000 = .ok .shr ∧
    decode 0x33000000 = .ok .ishr ∧ decode 0x34000000 = .ok .mixc ∧ decode 0x35000000 = .ok .imixc ∧
    decode 0x360B0000 = .ok (.ark 11) := by decide +kernel
theorem test_decode_pipeline : decode 0x40000000 = .ok .enc ∧ decode 0x41000000 = .ok .dec := by decide +kernel
theorem test_decode_primitives :
    decode 0x50570083 = .ok (.gfmul 0x57 0x83) ∧ decode 0x51000053 = .ok (.sbox 0x53) ∧
    decode 0x520000ED = .ok (.isbox 0xed) ∧ decode 0x53080000 = .ok (.rcon 8) := by decide +kernel
theorem test_decode_xor :
    decode 0x60000000 = .ok .xkclr ∧ decode 0x6120C7FE = .error .reservedBit ∧ decode 0x610020C7 = .ok (.xkpush 0x20C7) ∧
    decode 0x62000000 = .ok .xrst ∧ decode 0x6300FFFF = .ok (.xstep 0xFFFF) := by decide +kernel
theorem test_decodeTableWord : decodeTableWord 32 0x50570083 = some (.gfmul 0x57 0x83) ∧ decodeTableWord 32 0x40000001 = none := by
  decide +kernel
theorem test_encode_fields :
    encode (.swr 2 3 0x7c) = 0x2402037C ∧ encode (.xkpush 0x6b) = 0x6100006B ∧ encode (.bwr 15 0xff) = 0x200F00FF := by decide

/-! ## One step of each command -/

theorem test_nop : (after keyed 0x00000000).map scalars = some (scalars { keyed with rsp := some ⟨true, 0⟩ }) := by decide +kernel
theorem test_nop_reserved : response State.reset 0x00000001 = some ⟨false, 2⟩ := by decide +kernel
theorem test_srst_leaves_the_faulted_state : (after { faulted with klen := 5, blk := secret } 0x01000000).map scalars =
    some (scalars { State.reset with rsp := some ⟨true, 0⟩ }) := by
  decide +kernel
theorem test_srst_reserved : response faulted 0x01000001 = some ⟨false, 4⟩ := by decide +kernel
theorem test_csrr_views :
    response keyed 0x02000000 = some ⟨true, 0x00000100⟩ ∧ response keyed 0x02010000 = some ⟨true, 0x000A0410⟩ ∧
    response faulted 0x02000000 = some ⟨true, 4⟩ ∧ response faulted 0x02030000 = some ⟨true, 0x40000000⟩ ∧
    response State.reset 0x02040000 = some ⟨true, 0x41455307⟩ := by decide +kernel
theorem test_csrr_past_the_last : response State.reset 0x02050000 = some ⟨false, 3⟩ ∧ response faulted 0x02050000 = some ⟨false, 4⟩ := by
  decide +kernel
theorem test_kclr : (after keyed 0x10000000).map (fun t => (t.keybuf[5], t.klen, t.rkv, t.nr, t.rk[4])) =
    some (0, 0, false, 10, 0xd6aa74fd) := by decide +kernel
theorem test_kpush_drops_the_33rd : (after { keyed with klen := 32 } 0x110000AA).map (fun t => (t.keybuf[0], t.keybuf[31], t.klen, t.rkv)) =
    some (0, 0, 33, false) := by decide +kernel
theorem test_kpush_appends : (after keyed 0x1100002B).map (fun t => (t.keybuf[16], t.klen, t.rkv)) = some (0x2b, 17, false) := by
  decide +kernel
theorem test_kexp : (after key16 0x12000000).map (fun t => (t.rk.toList, scalars t)) =
    some (rk16.toList, scalars { keyed with rsp := some ⟨true, 0⟩ }) := by decide +kernel
theorem test_kexp_of_hello : (after { State.reset with
      keybuf := ((((State.reset.keybuf.set 0 0x68).set 1 0x65).set 2 0x6c).set 3 0x6c).set 4 0x6f, klen := 5 } 0x12000000).map
    (fun t => (t.rk[0], t.rk[1], t.rk[4], t.rk[43])) = some (0x68656C6C, 0x6F000000, 0x0A060F0F, 0xF56D9C66) := by decide +kernel
theorem test_rkrd : response keyed 0x132B0000 = some ⟨true, 0x4d2b30c5⟩ := by decide +kernel
theorem test_rkrd_bounds : response keyed 0x132C0000 = some ⟨false, 3⟩ ∧ response State.reset 0x133C0000 = some ⟨false, 3⟩ ∧
    response State.reset 0x133B0000 = some ⟨false, 4⟩ := by decide +kernel
theorem test_bwr : (after State.reset 0x200F00FF).map (fun t => (t.blk[15], t.blk[14])) = some (0xff, 0) := by decide +kernel
theorem test_bwr_out_of_range : (after State.reset 0x20100000).map scalars =
    some (scalars { State.reset with err := 3, fcmd := 0x20100000, rsp := some ⟨false, 3⟩ }) := by decide +kernel
theorem test_brd : response { State.reset with blk := secret } 0x21010000 = some ⟨true, 0xC4⟩ := by decide +kernel
theorem test_tost : (after { State.reset with blk := plain } 0x22000000).map (fun t => t.st) =
    some #v[#v[0x00, 0x44, 0x88, 0xcc], #v[0x11, 0x55, 0x99, 0xdd], #v[0x22, 0x66, 0xaa, 0xee], #v[0x33, 0x77, 0xbb, 0xff]] := by
  decide +kernel
theorem test_frst : (after { State.reset with
      st := #v[#v[0x00, 0x01, 0x02, 0x03], #v[0x10, 0x11, 0x12, 0x13], #v[0x20, 0x21, 0x22, 0x23], #v[0x30, 0x31, 0x32, 0x33]] }
      0x23000000).map (fun t => t.blk) = some (hex 0x00102030011121310212223203132333) := by decide +kernel
theorem test_swr : (after State.reset 0x2402037C).map (fun t => (t.st[2][3], t.st[3][2])) = some (0x7c, 0) := by decide +kernel
theorem test_srd_row_then_column : response (withSt 0x00112233445566778899aabbccddeeff) 0x25010000 = some ⟨true, 0x11⟩ ∧
    response (withSt 0x00112233445566778899aabbccddeeff) 0x25000100 = some ⟨true, 0x44⟩ := by decide +kernel
theorem test_srd_out_of_range : response keyed 0x25040000 = some ⟨false, 3⟩ := by decide +kernel
theorem test_subb : stAfter 0x00102030405060708090a0b0c0d0e0f0 0x30000000 = some (hex 0x63cab7040953d051cd60e0e7ba70e18c) := by
  decide +kernel
theorem test_isubb : stAfter 0x7a9f102789d5f50b2beffd9f3dca4ea7 0x31000000 = some (hex 0xbd6e7c3df2b5779e0b61216e8b10b689) := by
  decide +kernel
theorem test_shr : stAfter 0x63cab7040953d051cd60e0e7ba70e18c 0x32000000 = some (hex 0x6353e08c0960e104cd70b751bacad0e7) := by
  decide +kernel
theorem test_ishr : stAfter 0x7ad5fda789ef4e272bca100b3d9ff59f 0x33000000 = some (hex 0x7a9f102789d5f50b2beffd9f3dca4ea7) := by
  decide +kernel
theorem test_mixc : stAfter 0x6353e08c0960e104cd70b751bacad0e7 0x34000000 = some (hex 0x5f72641557f5bc92f7be3b291db9f91a) := by
  decide +kernel
theorem test_imixc : stAfter 0xe9f74eec023020f61bf2ccf2353c21c7 0x35000000 = some (hex 0x54d990a16ba09ab596bbf40ea111702f) := by
  decide +kernel
theorem test_matrices_first_column : ((List.finRange 4).map fun r => (mixMatrix.cell r 0, invMixMatrix.cell r 0)) =
    [(0x02, 0x0e), (0x01, 0x09), (0x01, 0x0d), (0x03, 0x0b)] := by decide
theorem test_ark : stAfter 0x5f72641557f5bc92f7be3b291db9f91a 0x36010000 = some (hex 0x89d810e8855ace682d1843d8cb128fe4) := by
  decide +kernel
theorem test_ark_checks : response keyed 0x360B0000 = some ⟨false, 3⟩ ∧ response State.reset 0x36C80000 = some ⟨false, 3⟩ ∧
    response State.reset 0x360C0000 = some ⟨false, 4⟩ := by decide +kernel
theorem test_enc : (after { keyed with blk := plain } 0x40000000).map (fun t => (t.blk, t.st[0])) =
    some (secret, #v[0x69, 0x6a, 0xd8, 0x70]) := by decide +kernel
theorem test_enc_without_key : (after State.reset 0x40000000).map scalars =
    some (scalars { faulted with rsp := some ⟨false, 4⟩ }) := by decide +kernel
theorem test_dec : (after { keyed with blk := secret } 0x41000000).map (fun t => t.blk) = some plain := by decide +kernel
theorem test_dec_without_key : response State.reset 0x41000000 = some ⟨false, 4⟩ := by decide +kernel
theorem test_gfmul : response State.reset 0x50570083 = some ⟨true, 0xc1⟩ ∧ response State.reset 0x50FF00FF = some ⟨true, 0x13⟩ := by
  decide +kernel
theorem test_gfmul_reserved : response State.reset 0x50570183 = some ⟨false, 2⟩ := by decide +kernel
theorem test_sbox : response State.reset 0x51000053 = some ⟨true, 0xed⟩ ∧ response State.reset 0x510000FF = some ⟨true, 0x16⟩ := by
  decide +kernel
theorem test_isbox : response State.reset 0x520000ED = some ⟨true, 0x53⟩ ∧ response State.reset 0x52000000 = some ⟨true, 0x52⟩ := by
  decide +kernel
theorem test_tables_xor_to_zero : ((List.range 256).map fun i => sbox (BitVec.ofNat 8 i)).foldl (· ^^^ ·) 0 = 0 ∧
    ((List.range 256).map fun i => invSbox (BitVec.ofNat 8 i)).foldl (· ^^^ ·) 0 = 0 := by decide +kernel
theorem test_rcon : response State.reset 0x53090000 = some ⟨true, 0x36⟩ ∧ response State.reset 0x530A0000 = some ⟨false, 3⟩ := by
  decide +kernel
theorem test_xkclr : (after xkeyed 0x60000000).map (fun t => (t.xkey[2], scalars t)) =
    some (0, scalars { State.reset with rsp := some ⟨true, 0⟩ }) := by decide +kernel
theorem test_xkpush : (after xkeyed 0x610020C7).map (fun t => (t.xkey[3], t.xkey[2], t.xklen, t.xpos)) =
    some (0x20C7, 0x79, 4, 0) := by decide +kernel
theorem test_xkpush_full : (after { State.reset with xklen := 256 } 0x61000001).map (fun t => (t.err, t.xklen, t.rsp)) =
    some (6, 256, some ⟨false, 6⟩) := by decide +kernel
theorem test_xrst : (after xkeyed 0x62000000).map (fun t => (t.xpos, t.xklen)) = some (0, 3) := by decide +kernel
theorem test_xstep_wraps : (after { xkeyed with xpos := 2 } 0x63000048).map (fun t => (t.rsp, t.xpos)) =
    some (some ⟨true, 0x31⟩, 0) := by decide +kernel
theorem test_xstep_empty_key : response State.reset 0x63000041 = some ⟨false, 5⟩ := by decide +kernel

/-! ## The ports (rules R70, R249, R250; log entries 1 to 3) -/

theorem test_idle_step : (stepped keyed).map scalars = some (scalars keyed) := by decide +kernel
theorem test_idle_input : (stepped { keyed with inputs := [⟨false, none⟩] }).map scalars = some (scalars keyed) := by
  decide +kernel
theorem test_rst_wins :
    (stepped { keyed with inputs := [⟨true, some 0x40000000⟩, ⟨false, some 0x01000000⟩] }).map scalars =
    some (scalars { State.reset with inputs := [⟨false, some 0x01000000⟩] }) := by decide +kernel
theorem test_withFetchWord_runs_the_word : (stepped (State.reset.withFetchWord 32 0x51000000)).map scalars =
    some (scalars { State.reset with rsp := some ⟨true, 0x63⟩ }) := by decide +kernel

/-! ## Pseudo-commands and the assembler (rules R80, R81) -/

theorem test_expand_ldkey : (Pseudo.ldkey [0x2b, 0x7e]).expand = [.kclr, .kpush 0x2b, .kpush 0x7e, .kexp] := by decide
theorem test_expand_xtext : (Pseudo.xtext [0x48, 0x69]).expand = [.xrst, .xstep 0x48, .xstep 0x69] := by decide
theorem test_assemble_hex : assembleLine "BWR 15, 0xff".toList = some 0x200F00FF := by decide +kernel
theorem test_assemble_comment : assembleLine "ARK 10   ; last".toList = some 0x360A0000 := by decide +kernel
theorem test_assemble_too_large : assembleLine "BWR 256, 0".toList = none := by decide +kernel

/-! ## The host's contract (T71 to T76) -/

theorem test_pad_of_five : Contract.pad [0x68, 0x65, 0x6c, 0x6c, 0x6f] =
    [0x68, 0x65, 0x6c, 0x6c, 0x6f] ++ List.replicate 11 0x0b := by decide +kernel
theorem test_unpad_tolerates : Contract.unpad (List.replicate 13 0x00 ++ [3, 3, 2]) = List.replicate 13 0x00 ++ [3, 3, 2] ∧
    Contract.unpad [1] = [] := by decide +kernel
theorem test_wireEncode : Contract.wireEncode [0x69, 0xc4, 0x04] = "105 196 4".toList.map Char.toNat := by decide +kernel
theorem test_wireParse : Contract.wireParse ("007 ".toList.map Char.toNat) = some [7] ∧
    Contract.wireParse ("1  2".toList.map Char.toNat) = none ∧ Contract.wireParse ("256".toList.map Char.toNat) = none := by
  decide +kernel
theorem test_known_misclassification :
    Contract.looksEncryptedAes ("1 2 3 4 5 6 7 8 9 10 11 12 13 14 15 16".toList.map Char.toNat) = true ∧
    Contract.looksEncryptedAes ("1 2 3 4 5 6 7 8 9 10 11 12 13 14 15".toList.map Char.toNat) = false ∧
    Contract.looksEncryptedXor ("1 2 3".toList.map Char.toNat) = true := by decide +kernel
theorem test_xorWireEncode : Contract.xorWireEncode [35, 2] = "35 2 ".toList.map Char.toNat := by decide +kernel

/-! ## Witnesses: for each statement with hypotheses, a state and operands that meet all of them, at the edges of their ranges -/

theorem witness_IllegalOpcodeFaults : State.reset.err = 0 ∧ illegalOpcode ((0x03000000 : Word).toNat / 2 ^ 24) = true ∧
    illegalOpcode ((0xFFFFFFFF : Word).toNat / 2 ^ 24) = true := by decide
theorem witness_ReservedBitFaults : State.reset.err = 0 ∧ illegalOpcode ((0x00800000 : Word).toNat / 2 ^ 24) = false ∧
    (0x00800000 : Word) &&& reservedBits ((0x00800000 : Word).toNat / 2 ^ 24) ≠ 0 ∧
    illegalOpcode ((0x63FF0000 : Word).toNat / 2 ^ 24) = false ∧
    (0x63FF0000 : Word) &&& reservedBits ((0x63FF0000 : Word).toNat / 2 ^ 24) ≠ 0 := by decide
theorem witness_OnlyTheZeroWordIsNop : decode 0x00000000 = .ok .nop ∧ decode 0x00000001 = .error .reservedBit := by decide +kernel
theorem witness_StepRunsTheDecodedCommand :
    (State.reset.present 0x51000053).inputs = ⟨false, some 0x51000053⟩ :: [] ∧ decode 0x51000053 = .ok (.sbox 0x53) := by
  decide +kernel
theorem witness_BothResetsReachTheResetState :
    ({ faulted with inputs := [⟨true, some 0x40000000⟩] } : State).inputs = ⟨true, some 0x40000000⟩ :: [] := rfl

theorem witness_EveryStepKeepsGoodStates :
    (xkeyed.present 0x63000048).Inv ∧ (stepped (xkeyed.present 0x63000048)).isSome = true := by
  refine ⟨⟨?_, fun h => (Bool.false_ne_true h).elim, ?_, ?_, ?_, ?_, ?_⟩, by decide +kernel⟩ <;> decide +kernel
theorem witness_EveryStepKeepsGoodStates_with_a_key : (keyed.present 0x110000AA).Inv ∧ keyed.rkv = true := by
  refine ⟨⟨?_, fun _ => .inl ⟨rfl, rfl⟩, ?_, ?_, ?_, ?_, ?_⟩, rfl⟩ <;> decide +kernel

theorem witness_FaultEntryChangesNothingElse : State.reset.err = 0 ∧ response State.reset 0x99FFFFFF = some ⟨false, 1⟩ ∧
    xkeyed.err = 0 ∧ response { xkeyed with xklen := 256 } 0x61000001 = some ⟨false, 6⟩ := by decide +kernel
theorem witness_FaultedEngineRefusesOtherWords : faulted.err ≠ 0 ∧
    ((0x02000000 : Word).extractLsb' 24 8 = (0x02 : Byte) ∧ (0x02000000 : Word).extractLsb' 0 16 = (0 : BitVec 16) ∧
      ((0x02000000 : Word).extractLsb' 16 8 : Byte).toNat = (0 : Fin 5).val) ∧
    ((0x02040000 : Word).extractLsb' 24 8 = (0x02 : Byte) ∧ (0x02040000 : Word).extractLsb' 0 16 = (0 : BitVec 16) ∧
      ((0x02040000 : Word).extractLsb' 16 8 : Byte).toNat = (4 : Fin 5).val) ∧
    ((0x02050000 : Word) ≠ 0x01000000 ∧ ¬ ((0x02050000 : Word).extractLsb' 16 8 : Byte).toNat ≤ 4) ∧
    ((0x01000001 : Word) ≠ 0x01000000 ∧ (0x01000001 : Word).extractLsb' 24 8 ≠ (0x02 : Byte)) := by decide
theorem witness_FaultedStateIsLeftOnlyByReset : faulted.err ≠ 0 ∧
    (∃ p rest, (faulted.present 0x01000000).inputs = p :: rest ∧ (p.rst = true ∨ p.cmd = some 0x01000000)) ∧
    (∃ p rest, ({ faulted with inputs := [⟨true, none⟩] } : State).inputs = p :: rest ∧
      (p.rst = true ∨ p.cmd = some 0x01000000)) ∧
    ¬ (∃ p rest, (faulted.present 0x01000001).inputs = p :: rest ∧ (p.rst = true ∨ p.cmd = some 0x01000000)) :=
  ⟨by decide, ⟨_, _, rfl, .inr rfl⟩, ⟨_, _, rfl, .inl rfl⟩, by
    rintro ⟨p, rest, h, hp⟩
    simp only [State.present, List.cons.injEq] at h
    rw [← h.1] at hp
    exact absurd hp (by decide)⟩
theorem witness_FaultedStateIsLeftOnlyByReset_both_ways : (after faulted 0x12000000).map (fun t => t.err) = some 4 ∧
    (after faulted 0x01000000).map (fun t => t.err) = some 0 := by decide +kernel
theorem witness_IndexOutsideItsStoreFaults : keyed.err = 0 ∧ keyed.rkv = true ∧
    15 < (16 : Byte).toNat ∧ 3 < (4 : Byte).toNat ∧ 9 < (10 : Byte).toNat ∧ 4 < (5 : Byte).toNat ∧ 59 < (60 : Byte).toNat ∧
    14 < (15 : Byte).toNat ∧ 4 * (keyed.nr.toNat + 1) ≤ (44 : Byte).toNat ∧ keyed.nr.toNat < (11 : Byte).toNat := by decide
theorem witness_StateChecksFaultInOrder : State.reset.err = 0 ∧ State.reset.rkv = false ∧ State.reset.xklen.val = 0 ∧
    (59 : Byte).toNat ≤ 59 ∧ 59 < (60 : Byte).toNat ∧ (14 : Byte).toNat ≤ 14 ∧ 14 < (15 : Byte).toNat ∧
    ({ State.reset with xklen := 256 } : State).err = 0 ∧ ({ State.reset with xklen := 256 } : State).xklen.val = 256 := by decide
theorem witness_EveryCommandEndsWithOneResponse :
    (State.reset.present 0x00000000).inputs = ⟨false, some 0x00000000⟩ :: [] ∧ response State.reset 0x00000000 = some ⟨true, 0⟩ ∧
    (stepped State.reset).map (fun t => t.rsp) = some none ∧ State.reset.inputs = [] ∧
    ({ keyed with inputs := [⟨false, none⟩] } : State).inputs = ⟨false, none⟩ :: [] := by decide +kernel

theorem witness_NopOnlyResponds : keyed.err = 0 := rfl
theorem witness_KclrClearsTheKeyStore : keyed.err = 0 ∧ keyed.klen = 16 ∧ keyed.rkv = true := by decide
theorem witness_KpushAppendsOneKeyByte : keyed.err = 0 ∧ ({ keyed with klen := 31 } : State).klen.toNat < 32 ∧
    ({ keyed with klen := 33 } : State).klen.toNat = 33 := by decide
theorem witness_LoadingAKeyFillsTheKeyStore : keyed.err = 0 ∧ (List.replicate 40 (0xaa : Byte)).length = 40 := by decide
theorem witness_RkrdRespondsWithTheWord : keyed.err = 0 ∧ keyed.rkv = true ∧ (43 : Byte).toNat < 4 * (keyed.nr.toNat + 1) ∧
    (43 : Byte).toNat < 60 := by decide
theorem witness_OtherKeyLengthsAreCoerced : (List.replicate 24 (1 : Byte)).length = 24 ∧
    effectiveKey [] = List.replicate 16 0 ∧ effectiveKey (List.replicate 17 7) = List.replicate 16 7 := by decide
theorem witness_StoredKeyDeterminesTheEffectiveKey :
    ∀ i : Fin 32, i.val < ((List.range 16).map (BitVec.ofNat 8)).length →
      keyed.keybuf[i] = ((List.range 16).map (BitVec.ofNat 8)).getD i.val 0 := by decide +kernel
theorem witness_ExpansionFollowsTheRecurrence :
    (expand (List.replicate 16 0)).nk ≤ 4 ∧ 43 < 4 * ((expand (List.replicate 16 0)).nr + 1) ∧
    (expand (List.replicate 32 0)).nk = 8 ∧ 12 % 8 = 4 := by decide +kernel
theorem witness_KexpStoresTheExpansion : key16.err = 0 := rfl
theorem witness_LoadingAnyKeyExpandsIt : keyed.err = 0 ∧ 43 < 4 * ((expand [0x68]).nr + 1) := by decide +kernel

theorem witness_BlockCellsAreReadAndWritten : State.reset.err = 0 ∧ (15 : Byte).toNat < 16 := by decide
theorem witness_StateCellsAreReadAndWritten : State.reset.err = 0 ∧ (3 : Byte).toNat = (3 : Fin 4).val ∧
    (0 : Byte).toNat = (0 : Fin 4).val := by decide
theorem witness_BlockCodecMovesByColumns : State.reset.err = 0 ∧ (15 : Fin 16).val = 4 * (3 : Fin 4).val + (3 : Fin 4).val := by decide
theorem witness_SubstitutionStepsActOnEveryCell : State.reset.err = 0 := rfl
theorem witness_ShiftStepsRotateTheRows : State.reset.err = 0 ∧ (2 : Fin 4).val = ((3 : Fin 4).val + (3 : Fin 4).val) % 4 ∧
    (1 : Fin 4).val = ((0 : Fin 4).val + 4 - (3 : Fin 4).val) % 4 := by decide
theorem witness_MixStepsMultiplyTheColumns : State.reset.err = 0 := rfl
theorem witness_ArkAddsTheRoundKey : keyed.err = 0 ∧ keyed.rkv = true ∧ (10 : Byte).toNat ≤ keyed.nr.toNat ∧ (10 : Byte).toNat ≤ 14 ∧
    (43 : Fin 60).val = 4 * (10 : Byte).toNat + (3 : Fin 4).val := by decide
theorem witness_EncAndDecWorkInPlace : keyed.err = 0 ∧ keyed.rkv = true := by decide
theorem witness_PipelinesAreInverse : (14 : Nat) = 10 ∨ (14 : Nat) = 12 ∨ (14 : Nat) = 14 := by decide
theorem witness_EncAndDecEqualTheirStepCommands : keyed.err = 0 ∧ keyed.rkv = true ∧ keyed.nr.toNat ≤ 14 := by decide
theorem witness_PrimitivesRespondAndChangeNothing : State.reset.err = 0 ∧ (9 : Byte).toNat = (9 : Fin 10).val := by decide
theorem witness_GfmulHasTheFieldLaws : gfmul 0x53 0xca = 1 ∧ (0x53 : Byte) ≠ 0 ∧ gfmul 0x57 0 = 0 := by decide
theorem witness_TablesPassTheirChecks : gfmul 0x53 0xca = 1 ∧ sbox 0x53 = sboxAffine 0xca ∧ (9 : Fin 10).val = (8 : Fin 10).val + 1 := by
  decide
theorem witness_XorKeyStoreIsLoaded : xkeyed.err = 0 ∧ ({ xkeyed with xklen := 255 } : State).xklen.val < 256 := by decide
theorem witness_XstepXorsAndAdvances : xkeyed.err = 0 ∧ xkeyed.xklen.val ≠ 0 := by decide
theorem witness_XorTextIsItsOwnInverse : ([0x6b] : List Char16).length ≠ 0 ∧ 1 < ([0x48, 0x69] : List Char16).length := by decide
theorem witness_SteppingATextComputesXorText : xkeyed.err = 0 ∧ 1 ≤ ([0x6b] : List Char16).length ∧
    (List.replicate 256 (0x6b : Char16)).length ≤ 256 := by decide +kernel

theorem witness_NoResponseDependsDirectlyOnTheKeyBytes : (Instr.csrr 1 ≠ .kexp) ∧ (Instr.rkrd 0 ≠ .kexp) := by decide
theorem witness_OnlyTheListedCommandsWriteEachStore : (Instr.bwr 15 0xff ≠ .srst) ∧
    (after keyed 0x200F00FF).any (fun t => t.blk != keyed.blk) = true ∧
    (after keyed 0x30000000).any (fun t => t.st != keyed.st) = true ∧
    (after keyed 0x11000001).any (fun t => t.keybuf != keyed.keybuf && t.klen != keyed.klen && t.rkv != keyed.rkv) = true ∧
    (after key16 0x12000000).any (fun t => t.rk != key16.rk && t.nr != key16.nr && t.rkv != key16.rkv) = true ∧
    (after xkeyed 0x61000001).any (fun t => t.xkey[3] != xkeyed.xkey[3] && t.xklen != xkeyed.xklen) = true ∧
    (after xkeyed 0x62000000).any (fun t => t.xpos != xkeyed.xpos) = true ∧
    (after keyed 0x99FFFFFF).any (fun t => t.err != keyed.err && t.fcmd != keyed.fcmd) = true := by decide +kernel
theorem witness_ReadsAreIdempotent : (∃ a, Instr.brd 15 = .brd a) ∧ (after keyed 0x210F0000).map (fun t => t.rsp) = some (some ⟨true, 0⟩) :=
  ⟨⟨15, rfl⟩, by decide +kernel⟩
theorem witness_XorAndAesCommandsCommute : (∃ x, Instr.xstep 0x48 = .xstep x) ∧
    ((after { keyed with xklen := 3 } 0x200F00FF).bind fun t => (after t 0x63000048).map fun u => (t.rsp, u.rsp)) =
      some (some ⟨true, 0⟩, some ⟨true, 0x48⟩) := ⟨⟨0x48, rfl⟩, by decide +kernel⟩

theorem witness_WireParseUndoesWireEncode : IsNumber 255 [50, 53, 53] ∧ IsNumber 255 [48, 48, 55] ∧
    wireTextOf [[50, 53, 53], [48, 48, 55]] 1 = "255 007 ".toList.map Char.toNat := by
  unfold IsNumber; decide
theorem witness_MalformedCiphertextIsRaised_nonNumeric : HasBadToken 255 ("1 2x 3".toList.map Char.toNat) :=
  ⟨"1 ".toList.map Char.toNat, "2x".toList.map Char.toNat, " 3".toList.map Char.toNat, by decide, .inr ⟨[49], by decide⟩,
    .inr ⟨[51], by decide⟩, by decide, .inl ⟨120, by decide, by decide⟩⟩
theorem witness_MalformedCiphertextIsRaised_empty : HasBadToken 255 (" 1".toList.map Char.toNat) :=
  ⟨[], [], " 1".toList.map Char.toNat, by decide, .inl rfl, .inr ⟨[49], by decide⟩, by decide,
    .inr (.inl ⟨rfl, 49, by decide, by decide⟩)⟩
theorem witness_MalformedCiphertextIsRaised_above : HasBadToken 255 ("256".toList.map Char.toNat) ∧
    HasBadToken 65535 ("65536".toList.map Char.toNat) :=
  ⟨⟨[], "256".toList.map Char.toNat, [], by decide, .inl rfl, .inl rfl, by decide, .inr (.inr (by decide))⟩,
    ⟨[], "65536".toList.map Char.toNat, [], by decide, .inl rfl, .inl rfl, by decide, .inr (.inr (by decide))⟩⟩
theorem witness_MalformedCiphertextIsRaised_count : IsNumber 255 [49] ∧ IsNumber 255 [50] ∧
    "1 2 ".toList.map Char.toNat = wireTextOf [[49], [50]] 1 ∧ ([[49], [50]] : List (List Nat)).length % 16 ≠ 0 := by
  unfold IsNumber; decide
theorem witness_EncryptingABlockRespondsWithTheCipher : keyed.err = 0 ∧ keyed.rkv = true := by decide
theorem witness_AesTextRoundTrip : keyed.err = 0 ∧ State.reset.err = 0 := by decide
theorem witness_XorTextRoundTrip : State.reset.err = 0 ∧ xkeyed.err = 0 ∧ 1 ≤ ([0x6b] : List Char16).length ∧
    ([0x6b] : List Char16).length ≤ 256 ∧ Contract.looksEncryptedXor (Contract.unitPoints [0x48, 0x69]) = false := by decide

end
end

section
/-! Bytes of a word by number, and the recurrence of the key expansion (rules R13, R145, R146). -/

namespace Sys2Proof.Machine

/-! ## Byte order, `rotWord` and `subWord` (rules R13, R145) -/

/-- `pack` is big-endian: its first byte is the most significant. -/
theorem pack_toNat (b0 b1 b2 b3 : Byte) :
    (pack b0 b1 b2 b3).toNat = b0.toNat * 2 ^ 24 + b1.toNat * 2 ^ 16 + b2.toNat * 2 ^ 8 + b3.toNat :=
  packFields_toNat b0 b1 b2 b3

/-- `byte_k` is a shift and a mask, said with numbers. -/
theorem byteOf_toNat (k : Fin 4) (w : Word) : (byteOf k w).toNat = w.toNat / 2 ^ (24 - 8 * k.val) % 256 := by
  rw [byteOf, BitVec.extractLsb'_toNat, Nat.shiftRight_eq_div_pow]

/-- Rotating left by 8 moves the top byte to the bottom and the rest up by a byte. -/
theorem rotWord_toNat (w : Word) : (rotWord w).toNat = w.toNat % 2 ^ 24 * 2 ^ 8 + w.toNat / 2 ^ 24 := by
  have hw : w.toNat < 2 ^ 32 := w.isLt
  have htop : w.toNat / 2 ^ 24 < 2 ^ 8 := by omega
  have hshift : (w.toNat <<< 8) % 2 ^ 32 = (w.toNat % 2 ^ 24) <<< 8 := by
    simp only [Nat.shiftLeft_eq]; omega
  rw [rotWord, BitVec.toNat_rotateLeft, hshift, Nat.shiftRight_eq_div_pow, ← Nat.shiftLeft_add_eq_or_of_lt htop,
    Nat.shiftLeft_eq]

/-- `rotWord` packs the bytes `(b1, b2, b3, b0)`. -/
theorem rotWord_eq_pack (w : Word) : rotWord w = pack (byteOf 1 w) (byteOf 2 w) (byteOf 3 w) (byteOf 0 w) := by
  apply BitVec.eq_of_toNat_eq
  simp only [rotWord_toNat, pack_toNat, byteOf_toNat]
  have hw : w.toNat < 2 ^ 32 := w.isLt
  simp; omega

/-- Each byte of `rotWord` is the next byte of the word, cyclically. -/
theorem byteOf_rotWord (k : Fin 4) (w : Word) : byteOf k (rotWord w) = byteOf (k + 1) w := by
  rw [rotWord_eq_pack, byteOf_pack]
  fin_cases k <;> rfl

/-- `subWord` acts on each byte in its place. -/
theorem byteOf_subWord (k : Fin 4) (w : Word) : byteOf k (subWord w) = sbox (byteOf k w) := by
  rw [subWord, byteOf_pack]
  fin_cases k <;> rfl

/-! ## The words of the expansion (rules R143, R144, R146) -/

/-- The first words are the packed key bytes. -/
theorem keyWords_getD {ek : List Byte} {nk i : Nat} (h : i < nk) : (keyWords ek nk).getD i 0 =
    pack (ek.getD (4 * i) 0) (ek.getD (4 * i + 1) 0) (ek.getD (4 * i + 2) 0) (ek.getD (4 * i + 3) 0) := by
  simp [keyWords, List.getD_eq_getElem?_getD, h]

/-- Every appended word obeys the recurrence over the finished list: a word is final once appended. -/
theorem extendWords_getD_of_le {nk n i : Nat} {w : List Word} (hpos : 0 < nk) (hnk : nk ≤ w.length) (hle : w.length ≤ i)
    (hlt : i < w.length + n) :
    (extendWords nk n w).getD i 0 =
      (extendWords nk n w).getD (i - nk) 0 ^^^ scheduleTemp nk i ((extendWords nk n w).getD (i - 1) 0) := by
  induction n generalizing w with
  | zero => omega
  | succ n ih =>
    have hlen : (w ++ [nextWord nk w]).length = w.length + 1 := by simp
    rw [extendWords]
    obtain rfl | hgt := hle.eq_or_lt
    · have hkeep (j : Nat) (hj : j < w.length) : (extendWords nk n (w ++ [nextWord nk w])).getD j 0 = w.getD j 0 := by
        rw [extendWords_getD_of_lt (by omega), List.getD_append _ _ _ _ hj]
      have hnew : (extendWords nk n (w ++ [nextWord nk w])).getD w.length 0 = nextWord nk w := by
        rw [extendWords_getD_of_lt (by omega)]; simp
      rw [hnew, hkeep _ (by omega), hkeep _ (by omega), nextWord]
    · exact ih (by omega) (by omega) (by omega)

/-- The sizes of an expansion are legal, whatever the raw key. -/
theorem expand_legalSizes (key : List Byte) : legalSizes (expand key).nk (expand key).nr := by
  obtain h | h | h := effectiveKey_length key <;> simp [expand, expandEffective, roundsOf, legalSizes, h]

/-- The rounds by the length of the effective key (rule R141). -/
theorem expand_nr (key : List Byte) : (expand key).nr =
    if (effectiveKey key).length = 16 then 10 else if (effectiveKey key).length = 24 then 12 else 14 := by
  obtain h | h | h := effectiveKey_length key <;> simp [expand, expandEffective, roundsOf, h]

/-- The words of an expansion are the key words extended to all `4 * (NR + 1)`. -/
theorem expand_words (key : List Byte) : (expand key).words =
    extendWords (expand key).nk (4 * ((expand key).nr + 1) - (expand key).nk) (keyWords (effectiveKey key) (expand key).nk) :=
  rfl

/-- An expansion has a round key of four words for the key addition before each round and after the last. -/
theorem expand_words_length (key : List Byte) : (expand key).words.length = 4 * ((expand key).nr + 1) := by
  have hsizes := expand_legalSizes key
  rw [expand_words, extendWords_length, keyWords_length]
  unfold legalSizes at hsizes; omega

/-- The first `NK` words are the packed effective key. -/
theorem expand_words_getD_of_lt {key : List Byte} {i : Nat} (h : i < (expand key).nk) :
    (expand key).words.getD i 0 = (keyWords (effectiveKey key) (expand key).nk).getD i 0 := by
  rw [expand_words, extendWords_getD_of_lt (by simpa using h)]

/-- The later words obey the recurrence. -/
theorem expand_words_getD_of_le {key : List Byte} {i : Nat} (hle : (expand key).nk ≤ i)
    (hlt : i < 4 * ((expand key).nr + 1)) :
    (expand key).words.getD i 0 = (expand key).words.getD (i - (expand key).nk) 0 ^^^
      scheduleTemp (expand key).nk i ((expand key).words.getD (i - 1) 0) := by
  have hpos : 0 < (expand key).nk := by
    have hsizes := expand_legalSizes key
    unfold legalSizes at hsizes; omega
  rw [expand_words]
  exact extendWords_getD_of_le hpos (by simp) (by simpa using hle) (by simp; omega)

/-- Settles O26: the words appended are final, so the recurrence that computes each holds of the finished list. -/
theorem expansionFollowsTheRecurrence : Obligations.ExpansionFollowsTheRecurrence := by
  unfold Obligations.ExpansionFollowsTheRecurrence
  refine ⟨pack_toNat, fun w k => byteOf_toNat k w, fun w => ?_, fun w k => byteOf_subWord k w, fun key => ?_⟩
  · exact ⟨byteOf_rotWord 0 w, byteOf_rotWord 1 w, byteOf_rotWord 2 w, byteOf_rotWord 3 w⟩
  · exact ⟨rfl, expand_nr key, expand_words_length key,
      fun i hi => (expand_words_getD_of_lt hi).trans (keyWords_getD hi),
      fun i hle hlt => expand_words_getD_of_le hle hlt⟩

end Sys2Proof.Machine
end

section
/-! The state's reset values, the numbers in the CSR views, and the invariant of rule R43 with its step lemma. -/

namespace Sys2Proof.Machine

/-! ## The views CSR 0 to 2 as numbers (rules R33, R34, R35) -/

/-- STATUS holds `ERR` in its low byte and `RKV` above it. -/
theorem csrStatus_toNat (s : State) : (csrStatus s).toNat = s.err.toNat + 2 ^ 8 * s.rkv.toNat := by
  simp only [csrStatus, append_toNat, BitVec.toNat_ofBool]
  simp; omega

/-- KINFO holds `KLEN`, `NK` and `NR` from bits 0, 8 and 16 on. -/
theorem csrKinfo_toNat (s : State) :
    (csrKinfo s).toNat = s.klen.toNat + 2 ^ 8 * s.nk.toNat + 2 ^ 16 * s.nr.toNat := by
  simp only [csrKinfo, append_toNat]
  simp; omega

/-- XINFO holds `XKLEN` and `XPOS`, which both fit in 16 bits. -/
theorem csrXinfo_toNat (s : State) : (csrXinfo s).toNat = s.xklen.val + 2 ^ 16 * s.xpos.val := by
  have hlen : s.xklen.val % 2 ^ 16 = s.xklen.val := Nat.mod_eq_of_lt (by omega)
  have hpos : s.xpos.val % 2 ^ 16 = s.xpos.val := Nat.mod_eq_of_lt (by omega)
  rw [csrXinfo, append_toNat, BitVec.toNat_ofNat, BitVec.toNat_ofNat, hlen, hpos]
  omega

/-- Settles O19: each view is the number its rule gives, and a CSR read writes the response port only. -/
theorem csrrRespondsWithTheView : Obligations.CsrrRespondsWithTheView := by
  unfold Obligations.CsrrRespondsWithTheView
  intro s
  exact ⟨⟨csrStatus s, exec_csrr_of_lt s (by decide), csrStatus_toNat s⟩,
    ⟨csrKinfo s, exec_csrr_of_lt s (by decide), csrKinfo_toNat s⟩,
    ⟨csrXinfo s, exec_csrr_of_lt s (by decide), csrXinfo_toNat s⟩,
    exec_csrr_of_lt s (by decide), exec_csrr_of_lt s (by decide)⟩

/-! ## Reset (rule R42) -/

/-- Settles O9: the stores are replicated zeros, the scalars are 0. -/
theorem resetValuesAreAllZero : Obligations.ResetValuesAreAllZero := by
  unfold Obligations.ResetValuesAreAllZero
  refine ⟨fun i => ?blk, fun r c => ?st, fun i => ?keybuf, rfl, fun i => ?rk, rfl, rfl, rfl, fun i => ?xkey,
    rfl, rfl, rfl, rfl⟩
  case st => simp [Matrix.cell, State.reset]
  all_goals exact Vector.getElem_replicate i.isLt

/-- The reset state meets the invariant: `RKV = 0` leaves nothing to say of RK, and every bounded scalar is 0. -/
theorem State.reset_inv : State.reset.Inv where
  klen_le := by decide
  key_sizes h := nomatch h
  key_words h := nomatch h
  xpos_zero _ := rfl
  xpos_lt h := absurd rfl h
  fcmd_zero _ := rfl
  err_code := by decide

/-- Settles O10: the fact the step lemma for `rst` and `SRST` uses too. -/
theorem resetStateIsGood : Obligations.ResetStateIsGood := State.reset_inv

/-! ## Updates that keep the invariant (rule R43) -/

/-- The invariant speaks of neither BLK, ST nor the ports. -/
theorem State.Inv.frame {s : State} (hs : s.Inv) (blk : Block) (st : Matrix) (inputs : List PortInput)
    (rsp : Option Response) : ({ s with blk := blk, st := st, inputs := inputs, rsp := rsp } : State).Inv where
  klen_le := hs.klen_le
  key_sizes := hs.key_sizes
  key_words := hs.key_words
  xpos_zero := hs.xpos_zero
  xpos_lt := hs.xpos_lt
  fcmd_zero := hs.fcmd_zero
  err_code := hs.err_code

/-- Any key bytes with a count of at most 33 keep it once `RKV = 0`: items on RK are then empty. -/
theorem State.Inv.invalidateKey {s : State} (hs : s.Inv) (keybuf : Vector Byte 32) {klen : BitVec 6}
    (hklen : klen.toNat ≤ 33) : ({ s with keybuf := keybuf, klen := klen, rkv := false } : State).Inv where
  klen_le := hklen
  key_sizes h := nomatch h
  key_words h := nomatch h
  xpos_zero := hs.xpos_zero
  xpos_lt := hs.xpos_lt
  fcmd_zero := hs.fcmd_zero
  err_code := hs.err_code

/-- Any XOR key keeps it with a position that is 0 or inside the key. -/
theorem State.Inv.setXor {s : State} (hs : s.Inv) (xkey : Vector Char16 256) {xklen : Fin 257} {xpos : Fin 256}
    (hpos : xpos.val = 0 ∨ xpos.val < xklen.val) :
    ({ s with xkey := xkey, xklen := xklen, xpos := xpos } : State).Inv where
  klen_le := hs.klen_le
  key_sizes := hs.key_sizes
  key_words := hs.key_words
  xpos_zero h := by dsimp only at h ⊢; omega
  xpos_lt h := by dsimp only at h ⊢; omega
  fcmd_zero := hs.fcmd_zero
  err_code := hs.err_code

/-- Fault entry keeps it: the code is one of the six, so `ERR` is not 0 (rules R231, R236). -/
theorem State.Inv.faultEntry {s : State} (hs : s.Inv) (e : FaultCode) (w : Word) : (s.faultEntry e w).Inv where
  klen_le := hs.klen_le
  key_sizes := hs.key_sizes
  key_words := hs.key_words
  xpos_zero := hs.xpos_zero
  xpos_lt := hs.xpos_lt
  fcmd_zero h := by
    have hcode : 1 ≤ e.code.toNat := e.code_range.1
    rw [State.faultEntry_err] at h
    simp [h] at hcode
  err_code := e.code_range.2

/-- Legal sizes fit in the four bits of NK and NR (rule R26). -/
theorem legalSizes.toNat_ofNat {nk nr : Nat} (h : legalSizes nk nr) :
    (BitVec.ofNat 4 nk).toNat = nk ∧ (BitVec.ofNat 4 nr).toNat = nr := by
  obtain ⟨rfl, rfl⟩ | ⟨rfl, rfl⟩ | ⟨rfl, rfl⟩ := h <;> decide

/-- A stored schedule holds its words from cell 0 on. -/
theorem storeWords_getElem_of_lt (rk : Vector Word 60) {w : List Word} {i : Fin 60} (h : i.val < w.length) :
    (storeWords rk w)[i] = w.getD i.val 0 := by
  simp [storeWords, h]

/-- The expansion of the stored key keeps it, whatever RK, NR, NK held before (rule R150). -/
theorem State.Inv.storeSchedule {s : State} (hs : s.Inv) {ks : RoundKeySet}
    (hks : expand (storedEffectiveKey s.keybuf s.klen.toNat) = ks) :
    ({ s with rk := storeWords s.rk ks.words, nr := BitVec.ofNat 4 ks.nr, nk := BitVec.ofNat 4 ks.nk, rkv := true } :
      State).Inv := by
  have hsizes : legalSizes ks.nk ks.nr := hks ▸ expand_legalSizes _
  have hlen : ks.words.length = 4 * (ks.nr + 1) := hks ▸ expand_words_length _
  obtain ⟨hnk, hnr⟩ := hsizes.toNat_ofNat
  refine ⟨hs.klen_le, fun _ => ?sizes, fun _ i hi => ?words, hs.xpos_zero, hs.xpos_lt, hs.fcmd_zero, hs.err_code⟩
  case sizes => simpa only [hnk, hnr] using hsizes
  case words =>
    rw [hks]
    exact storeWords_getElem_of_lt s.rk (by simpa only [hnr, hlen] using hi)

/-- `KPUSH` counts to 33 and no further (rule R24). -/
theorem nextKlen_le (klen : BitVec 6) : (nextKlen klen).toNat ≤ 33 := by
  have hmin : min (klen.toNat + 1) Config.klenSat ≤ 33 := Nat.min_le_right _ _
  rw [nextKlen, BitVec.toNat_ofNat]
  exact (Nat.mod_le _ _).trans hmin

/-! ## Commands and steps -/

/-- Where a command's rule ends without a fault, the state it gives meets `P` (rule R90). -/
def Rule.Ends (P : State → Prop) (r : Rule) : Prop := ∀ s v, r = .ok (s, v) → P s

/-- `done` and `respond` end in the state they name. -/
theorem Rule.Ends.ok {P : State → Prop} {s : State} {v : Word} (h : P s) : Rule.Ends P (.ok (s, v)) := by
  intro s' v' e; cases e; exact h

/-- A raised fault ends nowhere. -/
theorem Rule.Ends.error {P : State → Prop} {e : FaultCode} : Rule.Ends P (.error e) := nofun

/-- After a check only the rest of the rule matters. -/
theorem Rule.Ends.bind {α : Type} {P : State → Prop} {x : Except FaultCode α} {f : α → Rule}
    (h : ∀ a, Rule.Ends P (f a)) : Rule.Ends P (x >>= f) := by
  cases x with
  | ok a => exact h a
  | error e => exact Rule.Ends.error

/-- A command keeps the invariant when its own rule ends in it: a refusal writes the port only, a fault also `ERR` and
`FCMD`. -/
theorem exec_keeps_inv_of_rule {i : Instr} {s t : State} {r : Rule} (hs : s.Inv) (h : exec i s = .next t)
    (hrule : exec i s = command i s r) (hr : Rule.Ends State.Inv r) : t.Inv := by
  rw [hrule] at h
  obtain ⟨_, rfl⟩ | ⟨_, s', v, e, rfl⟩ | ⟨_, e, _, rfl⟩ := command_cases h
  · exact hs.frame ..
  · exact (hr s' v e).frame ..
  · exact hs.faultEntry e _

/-- Every command keeps the invariant. -/
theorem exec_keeps_inv {i : Instr} {s t : State} (hs : s.Inv) (h : exec i s = .next t) : t.Inv := by
  cases i
  case srst =>
    cases h
    exact State.reset_inv.frame ..
  case csrr a =>
    by_cases ha : a.toNat < 5
    · rw [exec_csrr_of_lt s ha] at h
      cases h
      exact hs.frame ..
    · exact exec_keeps_inv_of_rule hs h (exec_csrr_of_ge s (Nat.not_lt.mp ha)) .error
  -- the key store
  case kclr => exact exec_keeps_inv_of_rule hs h rfl (.ok (hs.invalidateKey _ (by decide)))
  case kpush c => exact exec_keeps_inv_of_rule hs h rfl (.ok (hs.invalidateKey _ (nextKlen_le _)))
  case kexp => exact exec_keeps_inv_of_rule hs h rfl (.ok (hs.storeSchedule rfl))
  -- the XOR key store
  case xkclr => exact exec_keeps_inv_of_rule hs h rfl (.ok (hs.setXor _ (.inl rfl)))
  case xrst => exact exec_keeps_inv_of_rule hs h rfl (.ok (hs.setXor _ (.inl rfl)))
  case xkpush v =>
    refine exec_keeps_inv_of_rule hs h rfl ?_
    split
    · exact .ok (hs.setXor _ (.inl rfl))
    · exact .error
  case xstep v =>
    refine exec_keeps_inv_of_rule hs h rfl ?_
    split
    · exact .error
    · next hlen => exact .ok (hs.setXor _ (.inr (Nat.mod_lt _ (Nat.pos_of_ne_zero hlen))))
  -- all others write at most BLK and ST, after no check, one, two or three
  case nop | tost | frst | subb | isubb | shr | ishr | mixc | imixc | gfmul | sbox | isbox =>
    exact exec_keeps_inv_of_rule hs h rfl (.ok (hs.frame ..))
  case bwr | brd | enc | dec | rcon => exact exec_keeps_inv_of_rule hs h rfl (.bind fun _ => .ok (hs.frame ..))
  case swr | srd => exact exec_keeps_inv_of_rule hs h rfl (.bind fun _ => .bind fun _ => .ok (hs.frame ..))
  case rkrd | ark => exact exec_keeps_inv_of_rule hs h rfl (.bind fun _ => .bind fun _ => .bind fun _ => .ok (hs.frame ..))

/-- Settles O11: idling, resetting, running a command and meeting a word that is no command each keep the invariant. -/
theorem everyStepKeepsGoodStates : Obligations.EveryStepKeepsGoodStates := by
  unfold Obligations.EveryStepKeepsGoodStates
  intro s t hs h
  have htaken (rest : List PortInput) : ({ s with inputs := rest, rsp := none } : State).Inv := hs.frame ..
  obtain ⟨rest, e⟩ | ⟨rest, e⟩ | ⟨rest, i, e⟩ | ⟨rest, w, d, _, e⟩ := step_cases s <;> rw [e] at h
  · cases h; exact htaken rest
  · cases h; exact State.reset_inv.frame ..
  · exact exec_keeps_inv (htaken rest) h
  · rw [undecodable_eq] at h
    cases h
    split
    · exact (htaken rest).frame ..
    · exact (htaken rest).faultEntry ..

end Sys2Proof.Machine
end

section
/-! One response for each command taken, faults of an index outside its store, and commands that only read (rules R59, R60,
R62). -/

namespace Sys2Proof.Machine

/-! ## What a step does with its next input (rules R60, R70, R249, R250) -/

/-- Every command answers a next state with a response in it. -/
theorem exec_responds (i : Instr) (s : State) : ∃ t r, exec i s = .next t ∧ t.rsp = some r := by
  obtain ⟨t, h⟩ := exec_next i s
  obtain ⟨_, rfl⟩ | ⟨a, ha, _, rfl⟩ | ⟨_, rfl⟩ | ⟨_, s', v, _, rfl⟩ | ⟨_, e, rfl⟩ := exec_cases h
  all_goals exact ⟨_, _, h, rfl⟩

/-- A word that is no command is answered with a response too. -/
theorem undecodable_responds (e : DecodeError) (w : Word) (s : State) :
    ∃ t r, undecodable e w s = .next t ∧ t.rsp = some r := by
  rw [undecodable_eq]
  split
  · exact ⟨_, _, rfl, rfl⟩
  · exact ⟨_, _, rfl, rfl⟩

/-- A state whose next input is a word is one in which the host presents that word. -/
theorem State.eq_present {s : State} {w : Word} {rest : List PortInput} (h : s.inputs = ⟨false, some w⟩ :: rest) :
    s = ({ s with inputs := rest } : State).present w := by
  simp only [State.present, ← h]

/-- A step that takes a word responds, whether the word is a command or not. -/
theorem step_responds_of_word {s : State} {w : Word} {rest : List PortInput} (h : s.inputs = ⟨false, some w⟩ :: rest) :
    ∃ t r, step s = .next t ∧ t.rsp = some r := by
  rw [State.eq_present h]
  cases hd : decode w with
  | ok i => rw [step_present_ok _ hd]; exact exec_responds i _
  | error e => rw [step_present_error _ hd]; exact undecodable_responds e w _

/-- With nothing to come, a step only clears the response port. -/
theorem step_of_no_input {s : State} (h : s.inputs = []) : step s = .next { s with rsp := none } := by
  simp only [step, takeInput, h]

/-- With `rst` and `cmd_valid` both 0, a step only moves the ports on. -/
theorem step_of_idle_input {s : State} {rest : List PortInput} (h : s.inputs = ⟨false, none⟩ :: rest) :
    step s = .next { s with inputs := rest, rsp := none } := by
  simp only [step, takeInput, h, Bool.false_eq_true, if_false]

/-- With `rst` asserted, a step resets the engine, whatever else is presented. -/
theorem step_of_rst {s : State} {cmd : Option Word} {rest : List PortInput} (h : s.inputs = ⟨true, cmd⟩ :: rest) :
    step s = .next { State.reset with inputs := rest, rsp := none } := by
  simp only [step, takeInput, h, if_true]; rfl

/-- A step answers a next state, with a response exactly when it took a word. -/
theorem step_responds_iff_word (s : State) : ∃ t, step s = .next t ∧
    (t.rsp.isSome = true ↔ ∃ w rest, s.inputs = ⟨false, some w⟩ :: rest) := by
  match h : s.inputs with
  | [] => exact ⟨_, step_of_no_input h, by simp⟩
  | ⟨true, cmd⟩ :: rest => exact ⟨_, step_of_rst h, by simp⟩
  | ⟨false, none⟩ :: rest => exact ⟨_, step_of_idle_input h, by simp⟩
  | ⟨false, some w⟩ :: rest =>
    obtain ⟨t, r, ht, hr⟩ := step_responds_of_word h
    exact ⟨t, ht, by simp [hr]⟩

/-- Settles O17: by what each kind of command and each kind of input leads to. -/
theorem everyCommandEndsWithOneResponse : Obligations.EveryCommandEndsWithOneResponse := by
  unfold Obligations.EveryCommandEndsWithOneResponse
  exact ⟨exec_responds, step_responds_iff_word, fun _ h => step_of_no_input h, fun _ _ h => step_of_idle_input h⟩

/-! ## Commands that only read (rule R59) -/

/-- A rule that, where it ends, leaves the state as it was, and ends with the same data whatever response is present. -/
def Rule.Reads (rule : State → Rule) : Prop :=
  ∀ s s' v, rule s = .ok (s', v) → s' = s ∧ ∀ w, rule (s.complete w) = .ok (s.complete w, v)

/-- Responding with a value of the stores is a read. -/
theorem Rule.Reads.respond {value : State → Word} (h : ∀ s w, value (s.complete w) = value s) :
    Rule.Reads fun s => respond s (value s) := by
  intro s s' v e
  cases e
  exact ⟨rfl, fun w => congrArg (fun d => Except.ok (s.complete w, d)) (h s w)⟩

/-- A rule that always raises a fault is a read. -/
theorem Rule.Reads.error {e : FaultCode} : Rule.Reads fun _ => .error e := nofun

/-- A check that does not look at the response port may stand before a read. -/
theorem Rule.Reads.bind {α : Type} {check : State → Except FaultCode α} {rule : α → State → Rule}
    (hcheck : ∀ s w, check (s.complete w) = check s) (h : ∀ a, Rule.Reads (rule a)) :
    Rule.Reads fun s => check s >>= fun a => rule a s := by
  intro s s' v e
  cases hc : check s with
  | ok a =>
    simp only [hcheck, hc, rule_ok_bind] at e ⊢
    exact h a s s' v e
  | error code => simp only [hc, rule_error_bind, reduceCtorEq] at e

/-- No CSR shows the response port. -/
@[simp] theorem csr_complete (s : State) (v : Word) (n : Fin 5) : csr (s.complete v) n = csr s n := by
  fin_cases n <;> rfl

/-- A command whose rule reads writes the response port only, and answers the same when issued again. -/
theorem exec_reads_of_rule {i : Instr} {s t : State} {v : Word} {rule : State → Rule} (h : exec i s = .next t)
    (hok : t.rsp = some ⟨true, v⟩) (hrule : ∀ s, exec i s = command i s (rule s)) (hr : Rule.Reads rule) :
    t = s.complete v ∧ exec i t = .next t := by
  rw [hrule] at h
  obtain ⟨_, rfl⟩ | ⟨h0, s', v', e, rfl⟩ | ⟨_, e, _, rfl⟩ := command_cases h
  · simp at hok
  · obtain ⟨rfl, hagain⟩ := hr s s' v' e
    obtain rfl : v' = v := by simpa using hok
    exact ⟨rfl, by rw [hrule, hagain, command_ok (by simpa using h0), State.complete_complete]⟩
  · simp at hok

/-- `CSRR` of an existing CSR reads in every state, faulted or not; past the last CSR it raises a fault (rules R62, R237). -/
theorem exec_csrr_reads {a : Byte} {s t : State} {v : Word} (h : exec (.csrr a) s = .next t)
    (hok : t.rsp = some ⟨true, v⟩) : t = s.complete v ∧ exec (.csrr a) t = .next t := by
  by_cases ha : a.toNat < 5
  · rw [exec_csrr_of_lt s ha] at h
    cases h
    obtain rfl : csr s ⟨a.toNat, ha⟩ = v := by simpa using hok
    exact ⟨rfl, by rw [exec_csrr_of_lt _ ha, csr_complete, State.complete_complete]⟩
  · exact exec_reads_of_rule h hok (fun s => exec_csrr_of_ge s (Nat.not_lt.mp ha)) .error

/-- Settles O52: `CSRR` reads in every state, and the rule of each other command is a read after at most three checks. -/
theorem readsAreIdempotent : Obligations.ReadsAreIdempotent := by
  unfold Obligations.ReadsAreIdempotent
  intro i s t v hi h hok
  obtain rfl | ⟨a, rfl⟩ | ⟨a, b, rfl⟩ | ⟨a, rfl⟩ | ⟨a, rfl⟩ | ⟨c, rfl⟩ | ⟨c, rfl⟩ | ⟨a, rfl⟩ | ⟨a, c, rfl⟩ := hi
  · exact exec_reads_of_rule h hok (fun _ => rfl) (.respond fun _ _ => rfl)
  · exact exec_reads_of_rule h hok (fun _ => rfl) (.bind (fun _ _ => rfl) fun _ => .respond fun _ _ => rfl)
  · exact exec_reads_of_rule h hok (fun _ => rfl)
      (.bind (fun _ _ => rfl) fun _ => .bind (fun _ _ => rfl) fun _ => .respond fun _ _ => rfl)
  · exact exec_reads_of_rule h hok (fun _ => rfl)
      (.bind (fun _ _ => rfl) fun _ => .bind (fun _ _ => rfl) fun _ => .bind (fun _ _ => rfl) fun _ =>
        .respond fun _ _ => rfl)
  · exact exec_csrr_reads h hok
  · exact exec_reads_of_rule h hok (fun _ => rfl) (.respond fun _ _ => rfl)
  · exact exec_reads_of_rule h hok (fun _ => rfl) (.respond fun _ _ => rfl)
  · exact exec_reads_of_rule h hok (fun _ => rfl) (.bind (fun _ _ => rfl) fun _ => .respond fun _ _ => rfl)
  · exact exec_reads_of_rule h hok (fun _ => rfl) (.respond fun _ _ => rfl)

/-! ## Faults of an index outside its store (rules R62, R235) -/

/-- A rule whose first check raises a fault raises it. -/
theorem rule_bind_of_error {α : Type} {x : Except FaultCode α} {e : FaultCode} {f : α → Rule} (h : x = .error e) :
    (x >>= f) = .error e := by
  rw [h, rule_error_bind]

/-- After an index check, passed or not, a rule that would raise `ERR_INDEX` raises it. -/
theorem checkIndex_bind_index {n : Nat} {a : Byte} {f : Fin n → Rule} (h : ∀ i, f i = .error .index) :
    (checkIndex n a >>= f) = .error .index := by
  obtain ⟨ha, e⟩ | ⟨_, e⟩ := checkIndex_cases n a
  · rw [e, rule_ok_bind, h]
  · exact rule_bind_of_error e

/-- Two index checks raise `ERR_INDEX` when either index is outside. -/
theorem checkIndex_checkIndex_index {m n : Nat} {a b : Byte} {f : Fin m → Fin n → Rule} (h : m ≤ a.toNat ∨ n ≤ b.toNat) :
    (checkIndex m a >>= fun i => checkIndex n b >>= fun j => f i j) = .error .index := by
  obtain ha | hb := h
  · exact rule_bind_of_error (checkIndex_of_ge ha)
  · exact checkIndex_bind_index fun _ => rule_bind_of_error (checkIndex_of_ge hb)

/-- With valid round keys, an index past the current schedule raises `ERR_INDEX`, within the fixed bound or not. -/
theorem checkIndex_checkLimit_index {n limit : Nat} {a : Byte} {s : State} {f : Fin n → Rule} (hkey : s.rkv = true)
    (h : limit ≤ a.toNat) :
    (checkIndex n a >>= fun i => requireKey s >>= fun _ => checkLimit limit a >>= fun _ => f i) = .error .index :=
  checkIndex_bind_index fun _ => by
    rw [requireKey_of_valid hkey, rule_ok_bind, checkLimit_of_ge h, rule_error_bind]

/-- A command whose rule raises `ERR_INDEX` faults with code 0x03 and changes nothing else. -/
theorem exec_index_fault {i : Instr} {s : State} {r : Rule} (h0 : s.err = 0) (hrule : exec i s = command i s r)
    (hr : r = .error .index) :
    exec i s = .next { s with err := 0x03, fcmd := encode i, rsp := some ⟨false, 0x03⟩ } := by
  rw [hrule, hr, command_error h0]; rfl

/-- Settles O15: each command raises `ERR_INDEX` at the first check its index fails. -/
theorem indexOutsideItsStoreFaults : Obligations.IndexOutsideItsStoreFaults := by
  unfold Obligations.IndexOutsideItsStoreFaults
  intro s h0
  refine ⟨fun a c h => ?bwr, fun a h => ?brd, fun a b c h => ?swr, fun a b h => ?srd, fun a h => ?rcon, fun a h => ?csrr,
    fun a h => ?rkrdFixed, fun a h => ?arkFixed, fun a hkey h => ?rkrd, fun a hkey h => ?ark,
    fun c => ⟨_, command_ok (i := .sbox c) h0⟩, fun c => ⟨_, command_ok (i := .isbox c) h0⟩⟩
  case csrr => exact exec_index_fault h0 (exec_csrr_of_ge s h) rfl
  case swr | srd => exact exec_index_fault h0 rfl (checkIndex_checkIndex_index h)
  case rkrd | ark => exact exec_index_fault h0 rfl (checkIndex_checkLimit_index hkey h)
  case bwr | brd | rcon | rkrdFixed | arkFixed => exact exec_index_fault h0 rfl (rule_bind_of_error (checkIndex_of_ge h))

end Sys2Proof.Machine
end

section
/-! The decoder against the encoder and against the lists of rules R72 and R76, and what a step makes of a word. -/

namespace Sys2Proof

/-! ## Decoding an encoded command (rules R74, R80) -/

/-- A packed word whose reserved fields are 0 is the command its row makes. -/
theorem decode_packFields {op a b c : Byte} {r : OpcodeRow} {i : Instr} (h : findRow op = some r)
    (ha : r.format.reserves.1 = true → a = 0) (hb : r.format.reserves.2.1 = true → b = 0)
    (hc : r.format.reserves.2.2 = true → c = 0) (hmake : r.make (packFields op a b c) = i) :
    decode (packFields op a b c) = .ok i := by
  rw [← hmake]
  exact decode_of_row (by simpa using h) (by simpa using ⟨ha, hb, hc⟩)

/-- A word packed from an opcode of format H and an `imm16` is the command its row makes. -/
theorem decode_packImm {op : Byte} {v : Char16} {r : OpcodeRow} {i : Instr} (h : findRow op = some r)
    (hf : r.format = .H) (hmake : r.make (packImm op v) = i) : decode (packImm op v) = .ok i := by
  rw [packImm_eq] at hmake ⊢
  exact decode_packFields h (fun _ => rfl) (by simp [hf, Format.reserves]) (by simp [hf, Format.reserves]) hmake

/-- Decoding undoes encoding: format by format, a field is reserved and 0 or it is the operand. -/
theorem decode_encode (i : Instr) : decode (encode i) = .ok i := by
  cases i
  case nop | srst | kclr | kexp | tost | frst | subb | isubb | shr | ishr | mixc | imixc | enc | dec | xkclr | xrst =>
    exact decode_packFields rfl (fun _ => rfl) (fun _ => rfl) (fun _ => rfl) rfl
  case csrr | rkrd | brd | ark | rcon => exact decode_packFields rfl nofun (fun _ => rfl) (fun _ => rfl) (by simp)
  case kpush | sbox | isbox => exact decode_packFields rfl (fun _ => rfl) (fun _ => rfl) nofun (by simp)
  case bwr | gfmul => exact decode_packFields rfl nofun (fun _ => rfl) nofun (by simp)
  case srd => exact decode_packFields rfl nofun nofun (fun _ => rfl) (by simp)
  case swr => exact decode_packFields rfl nofun nofun nofun (by simp)
  case xkpush | xstep => exact decode_packImm rfl rfl (by simp)

/-- Settles O1: for each format, by what the decoder makes of a packed word. -/
theorem decodeOfEncodeIsTheCommand : Obligations.DecodeOfEncodeIsTheCommand := decode_encode

/-! ## Encoding a decoded command (rule R75) -/

/-- The lists of rule R76 and the rows of rule R74 leave no opcode out and share none. -/
theorem illegalOpcode_iff_findRow (op : Byte) : illegalOpcode op.toNat = true ↔ findRow op = none := by
  revert op; decide +kernel

/-- The opcode field as a number. -/
theorem opField_toNat (w : Word) : (opField w).toNat = w.toNat / 2 ^ 24 := by
  have := w.isLt
  rw [opField, BitVec.extractLsb'_toNat, Nat.shiftRight_eq_div_pow]; omega

/-- The bits rule R72 reserves for an opcode are the reserved fields of its row's format. -/
theorem reservedBits_of_mem {r : OpcodeRow} (h : r ∈ opcodeMap) : reservedBits r.op.toNat =
    packFields 0 (onesIf r.format.reserves.1) (onesIf r.format.reserves.2.1) (onesIf r.format.reserves.2.2) := by
  revert r; decide

/-- A byte masked by a field's ones is 0 when the field is not reserved or the byte is 0. -/
theorem and_onesIf_eq_zero (reserved : Bool) (x : Byte) : x &&& onesIf reserved = 0 ↔ (reserved = true → x = 0) := by
  cases reserved with
  | false => simp [onesIf]
  | true =>
    have hones : x &&& onesIf true = x := BitVec.and_allOnes
    simp [hones]

/-- A packed word is 0 exactly when its four fields are. -/
theorem packFields_eq_zero (op a b c : Byte) : packFields op a b c = 0 ↔ op = 0 ∧ a = 0 ∧ b = 0 ∧ c = 0 := by
  constructor
  · intro h
    have hzero : (0 : Word) = packFields 0 0 0 0 := rfl
    rw [hzero] at h
    exact ⟨by simpa using congrArg opField h, by simpa using congrArg aField h, by simpa using congrArg bField h,
      by simpa using congrArg cField h⟩
  · rintro ⟨rfl, rfl, rfl, rfl⟩; rfl

/-- No reserved bit of a word is 1 when its format's reserved fields are 0. -/
theorem and_reservedBits_eq_zero {w : Word} {r : OpcodeRow} (h : findRow (opField w) = some r) :
    w &&& reservedBits (w.toNat / 2 ^ 24) = 0 ↔
      (r.format.reserves.1 = true → aField w = 0) ∧ (r.format.reserves.2.1 = true → bField w = 0) ∧
        (r.format.reserves.2.2 = true → cField w = 0) := by
  obtain ⟨hmem, hop⟩ := findRow_some h
  rw [← opField_toNat, ← hop, reservedBits_of_mem hmem]
  conv_lhs => rw [← packFields_fields w]
  rw [packFields_and, packFields_eq_zero, and_onesIf_eq_zero, and_onesIf_eq_zero, and_onesIf_eq_zero]
  simp

/-- `imm16` is `{b, c}`, read from a word (rule R71). -/
theorem packImm_imm16Field_eq (op : Byte) (w : Word) : packImm op (imm16Field w) = packFields op 0 (bField w) (cField w) := by
  have hb : (imm16Field w).extractLsb' 8 8 = bField w := by ext; simp [imm16Field, bField]
  have hc : (imm16Field w).extractLsb' 0 8 = cField w := by ext; simp [imm16Field, cField]
  rw [packImm_eq, hb, hc]

/-- The command a row makes of any word encodes to the row's opcode, its operand fields and 0 in the reserved ones,
row by row. -/
theorem encode_make (w : Word) : ∀ r ∈ opcodeMap, encode (r.make w) = packFields r.op
    (if r.format.reserves.1 then 0 else aField w) (if r.format.reserves.2.1 then 0 else bField w)
    (if r.format.reserves.2.2 then 0 else cField w) := by
  simp [opcodeMap, rowsControlKeyAccess, rowsStepsPrimitivesXor, encode, Format.reserves, packImm_imm16Field_eq]

/-- The command a row makes of its own word, reserved fields 0, encodes to that word. -/
theorem encode_make_of_reserved_zero {w : Word} {r : OpcodeRow} (h : findRow (opField w) = some r)
    (hr : (r.format.reserves.1 = true → aField w = 0) ∧ (r.format.reserves.2.1 = true → bField w = 0) ∧
      (r.format.reserves.2.2 = true → cField w = 0)) : encode (r.make w) = w := by
  have keep (reserved : Bool) (x : Byte) (hx : reserved = true → x = 0) : (if reserved then 0 else x) = x := by
    split
    · exact (hx ‹_›).symm
    · rfl
  obtain ⟨hmem, hop⟩ := findRow_some h
  obtain ⟨ha, hb, hc⟩ := hr
  rw [encode_make w r hmem, keep _ _ ha, keep _ _ hb, keep _ _ hc, hop, packFields_fields]

/-! ## The three kinds of word (rules R75 to R78) -/

/-- A word with an opcode rule R76 lists is refused for its opcode. -/
theorem decode_of_illegalOpcode {w : Word} (h : illegalOpcode (w.toNat / 2 ^ 24) = true) :
    decode w = .error .illegalOpcode := by
  rw [← opField_toNat] at h
  exact decode_illegal ((illegalOpcode_iff_findRow _).mp h)

/-- A word with any other opcode has a row. -/
theorem findRow_of_legalOpcode {w : Word} (h : illegalOpcode (w.toNat / 2 ^ 24) = false) :
    ∃ r, findRow (opField w) = some r := by
  rw [← opField_toNat] at h
  exact Option.ne_none_iff_exists'.mp fun hnone => by simp [(illegalOpcode_iff_findRow _).mpr hnone] at h

/-- A word with a legal opcode and a reserved bit set is refused for that bit. -/
theorem decode_of_reserved_bit {w : Word} (hop : illegalOpcode (w.toNat / 2 ^ 24) = false)
    (h : w &&& reservedBits (w.toNat / 2 ^ 24) ≠ 0) : decode w = .error .reservedBit := by
  obtain ⟨r, hrow⟩ := findRow_of_legalOpcode hop
  exact decode_reserved hrow fun hr => h ((and_reservedBits_eq_zero hrow).mpr hr)

/-- A word with a legal opcode and no reserved bit set is a command's, and that command encodes to it. -/
theorem decode_of_reserved_clear {w : Word} (hop : illegalOpcode (w.toNat / 2 ^ 24) = false)
    (h : w &&& reservedBits (w.toNat / 2 ^ 24) = 0) : ∃ i, decode w = .ok i ∧ encode i = w := by
  obtain ⟨r, hrow⟩ := findRow_of_legalOpcode hop
  have hr := (and_reservedBits_eq_zero hrow).mp h
  exact ⟨r.make w, decode_of_row hrow hr, encode_make_of_reserved_zero hrow hr⟩

/-- Settles O2: by the two checks of a word, its opcode first. -/
theorem everyWordIsExactlyOneOfThree : Obligations.EveryWordIsExactlyOneOfThree := by
  unfold Obligations.EveryWordIsExactlyOneOfThree
  intro w
  simp only [wordOpcodeLegal, wordReservedClear, Bool.not_eq_false', Bool.not_eq_true', beq_eq_false_iff_ne, beq_iff_eq]
  cases hop : illegalOpcode (w.toNat / 2 ^ 24) with
  | true => exact .inl ⟨rfl, decode_of_illegalOpcode hop⟩
  | false =>
    by_cases hr : w &&& reservedBits (w.toNat / 2 ^ 24) = 0
    · exact .inr (.inr ⟨rfl, hr, decode_of_reserved_clear hop hr⟩)
    · exact .inr (.inl ⟨rfl, hr, decode_of_reserved_bit hop hr⟩)

/-- Encoding undoes decoding: a word that decodes is none of the other two kinds. -/
theorem encode_of_decode {w : Word} {i : Instr} (h : decode w = .ok i) : encode i = w := by
  obtain ⟨_, hd⟩ | ⟨_, _, hd⟩ | ⟨_, _, j, hd, hj⟩ := everyWordIsExactlyOneOfThree w
  · simp [hd] at h
  · simp [hd] at h
  · obtain rfl : j = i := by simpa [hd] using h
    exact hj

/-- Each word is the encoding of the command it decodes to, and of no other. -/
theorem decode_eq_ok_iff {w : Word} {i : Instr} : decode w = .ok i ↔ w = encode i :=
  ⟨fun h => (encode_of_decode h).symm, fun h => h ▸ decode_encode i⟩

/-- Settles O5: 0 is the word of `NOP`. -/
theorem onlyTheZeroWordIsNop : Obligations.OnlyTheZeroWordIsNop := fun _ => decode_eq_ok_iff

/-- Settles O6: the ten command words are what the encoder gives, the other two fail the checks of rules R77 and R76. -/
theorem wordsWrittenOutDecode : Obligations.WordsWrittenOutDecode := by
  unfold Obligations.WordsWrittenOutDecode
  refine ⟨?_, ?_, ?_, ?_, ?_, ?_, ?_, ?_, ?_, ?_, ?reserved, ?illegal⟩
  case reserved => exact decode_of_reserved_bit rfl (by decide)
  case illegal => exact decode_of_illegalOpcode rfl
  all_goals exact decode_eq_ok_iff.mpr rfl

end Sys2Proof

namespace Sys2Proof.Machine

/-! ## Steps by the kind of word presented (rules R76, R77, R90) -/

/-- An unfaulted engine that takes a word which is no command faults with the word's own error (rule R236). -/
theorem step_present_error_unfaulted {s : State} {w : Word} {e : DecodeError} (h0 : s.err = 0)
    (hd : decode w = .error e) : step (s.present w) = .next (s.faultEntry (faultOfDecodeError e) w) := by
  rw [step_present_error s hd]
  exact undecodable_unfaulted h0

/-- Settles O3: such a word has no row in the opcode map. -/
theorem illegalOpcodeFaults : Obligations.IllegalOpcodeFaults := by
  unfold Obligations.IllegalOpcodeFaults
  exact ⟨by decide +kernel, fun s w h0 h => step_present_error_unfaulted h0 (decode_of_illegalOpcode h)⟩

/-- Settles O4: such a word fails the mask test of its row. -/
theorem reservedBitFaults : Obligations.ReservedBitFaults := by
  unfold Obligations.ReservedBitFaults
  exact fun s w h0 hop h => step_present_error_unfaulted h0 (decode_of_reserved_bit hop h)

/-- Settles O7: such a state is one in which the host presents the word. -/
theorem stepRunsTheDecodedCommand : Obligations.StepRunsTheDecodedCommand := by
  unfold Obligations.StepRunsTheDecodedCommand
  intro s w rest i h hd
  exact (congrArg step (State.eq_present h)).trans (step_present_ok _ hd)

end Sys2Proof.Machine
end

section
/-! Runs of commands that all execute, and loading and expanding a raw key (rules R63, R81, R96, R142, R150). -/

namespace Sys2Proof.Machine

/-! ## Runs in which every command executes (rules R63, R70, R79) -/

/-- `n` responses `(1, data k)`. -/
def okResponses (data : Nat → Word) (n : Nat) : List Response := (List.range n).map fun k => ⟨true, data k⟩

/-- The first of the responses, then the rest. -/
theorem okResponses_succ (data : Nat → Word) (n : Nat) :
    okResponses data (n + 1) = ⟨true, data 0⟩ :: okResponses (fun k => data (k + 1)) n := by
  rw [okResponses, List.range_succ_eq_map, List.map_cons, List.map_map]; rfl

@[simp] theorem okResponses_length (data : Nat → Word) (n : Nat) : (okResponses data n).length = n := by simp [okResponses]

/-- Each of the responses is ok. -/
theorem exists_of_mem_okResponses {data : Nat → Word} {n : Nat} {r : Response} (h : r ∈ okResponses data n) :
    ∃ k < n, r = ⟨true, data k⟩ := by
  obtain ⟨k, hk, rfl⟩ := List.mem_map.mp h
  exact ⟨k, List.mem_range.mp hk, rfl⟩

/-- The last of some responses `(1, 0)`, the first of which stands on the port already. -/
theorem okResponses_zero_getLast?_or (n : Nat) :
    (okResponses (fun _ => 0) n).getLast?.or (some ⟨true, 0⟩) = some ⟨true, 0⟩ := by
  cases n with
  | zero => rfl
  | succ n => simp [okResponses, List.getLast?_replicate]

/-- Commands each of which takes the stores from `st k` to `st (k + 1)` and responds `(1, data k)`, issued one after the other:
the stores go from `st 0` to the last, and the port shows the last response. -/
theorem runCommands_chain {is : List Instr} {st : Nat → State} {data : Nat → Word}
    (h : ∀ k (hk : k < is.length), exec is[k] { st k with rsp := none } = .next ((st (k + 1)).complete (data k)))
    (port : Option Response) :
    runCommands { st 0 with rsp := port } is =
      some ({ st is.length with rsp := (okResponses data is.length).getLast?.or port }, okResponses data is.length) := by
  induction is generalizing st data port with
  | nil => rfl
  | cons i is ih =>
    have hfirst : transact { st 0 with rsp := port } (encode i) = some ((st 1).complete (data 0), ⟨true, data 0⟩) :=
      transact_command (decode_encode i) (h 0 (by simp)) rfl
    have hrest := ih (st := fun k => st (k + 1)) (data := fun k => data (k + 1))
      (fun k hk => h (k + 1) (by simpa using hk)) (some ⟨true, data 0⟩)
    rw [runCommands_cons hfirst hrest, List.length_cons, okResponses_succ, List.getLast?_cons]
    cases (okResponses (fun k => data (k + 1)) is.length).getLast? <;> rfl

/-! ## Loading a key (rules R94 to R96) -/

theorem exec_kclr {s : State} (h0 : s.err = 0) : exec .kclr s =
    .next (State.complete { s with keybuf := Vector.replicate 32 0, klen := 0, rkv := false } 0) :=
  command_ok (i := .kclr) h0

theorem exec_kpush {s : State} (c : Byte) (h0 : s.err = 0) : exec (.kpush c) s =
    .next (State.complete { s with keybuf := storeKeyByte s.keybuf s.klen c, klen := nextKlen s.klen, rkv := false } 0) :=
  command_ok (i := .kpush c) h0

/-- The cells of the key store with a raw key in them: the first 32 bytes, and 0 past the key's end.  Irreducible, so that
comparing states never computes the vector. -/
@[irreducible] def keyCells (key : List Byte) : Vector Byte 32 := Vector.ofFn fun i => key.getD i.val 0

/-- `KLEN` with a raw key stored: its length, saturated at 33. -/
def keyCount (key : List Byte) : BitVec 6 := BitVec.ofNat 6 (min key.length 33)

/-- The state with a raw key in its key store (rule R96). -/
def State.loadKey (s : State) (key : List Byte) : State :=
  { s with keybuf := keyCells key, klen := keyCount key, rkv := false }

@[simp] theorem State.loadKey_keybuf (s : State) (key : List Byte) : (s.loadKey key).keybuf = keyCells key := rfl
@[simp] theorem State.loadKey_klen (s : State) (key : List Byte) : (s.loadKey key).klen = keyCount key := rfl
@[simp] theorem State.loadKey_rk (s : State) (key : List Byte) : (s.loadKey key).rk = s.rk := rfl
@[simp] theorem State.loadKey_err (s : State) (key : List Byte) : (s.loadKey key).err = s.err := rfl

@[simp] theorem keyCells_getElem (key : List Byte) (i : Nat) (h : i < 32) : (keyCells key)[i] = key.getD i 0 := by
  unfold keyCells; simp

@[simp] theorem keyCount_toNat (key : List Byte) : (keyCount key).toNat = min key.length 33 := by
  simp only [keyCount, BitVec.toNat_ofNat]; omega

/-- Appending one byte to a key changes what is read at the key's length only. -/
theorem getD_append_singleton (key : List Byte) (c : Byte) (i : Nat) :
    (key ++ [c]).getD i 0 = if i = key.length then c else key.getD i 0 := by
  simp only [List.getD_eq_getElem?_getD]
  obtain hlt | rfl | hgt := Nat.lt_trichotomy i key.length
  · rw [List.getElem?_append_left hlt, if_neg hlt.ne]
  · simp
  · rw [List.getElem?_eq_none (by simp; omega), List.getElem?_eq_none hgt.le, if_neg hgt.ne']

/-- One more byte goes to the cell at the key's length, if there is one (rule R95). -/
theorem storeKeyByte_keyCells (key : List Byte) (c : Byte) :
    storeKeyByte (keyCells key) (keyCount key) c = keyCells (key ++ [c]) := by
  have hcount := keyCount_toNat key
  apply Vector.ext
  intro i hi
  rw [keyCells_getElem, getD_append_singleton, storeKeyByte]
  split
  · next h =>
    have hlen : (keyCount key).toNat = key.length := by omega
    simp only [Vector.getElem_set, hlen, keyCells_getElem, eq_comm]
  · next h => rw [keyCells_getElem, if_neg (by omega)]

/-- Counting one more byte (rules R24, R95). -/
theorem nextKlen_keyCount (key : List Byte) (c : Byte) : nextKlen (keyCount key) = keyCount (key ++ [c]) := by
  apply BitVec.eq_of_toNat_eq
  rw [nextKlen, BitVec.toNat_ofNat, keyCount_toNat, keyCount_toNat, List.length_append, List.length_singleton]
  unfold Config.klenSat; omega

/-- No key bytes leave the cells `KCLR` leaves (rule R94). -/
theorem keyCells_nil : keyCells [] = Vector.replicate 32 0 := by
  apply Vector.ext
  intro i hi
  rw [keyCells_getElem, Vector.getElem_replicate]
  rfl

/-- `KCLR` leaves the key store with no byte pushed. -/
theorem exec_kclr_loadKey {s : State} (h0 : s.err = 0) (port : Option Response) :
    exec .kclr { s with rsp := port } = .next ((s.loadKey []).complete 0) := by
  rw [State.loadKey, keyCells_nil]
  exact exec_kclr h0

/-- `KPUSH` appends its byte to the key pushed so far. -/
theorem exec_kpush_loadKey {s : State} (key : List Byte) (c : Byte) (h0 : s.err = 0) (port : Option Response) :
    exec (.kpush c) { s.loadKey key with rsp := port } = .next ((s.loadKey (key ++ [c])).complete 0) := by
  rw [State.loadKey, State.loadKey, ← storeKeyByte_keyCells, ← nextKlen_keyCount]
  exact exec_kpush c h0

/-- `KCLR` and `KPUSH` of every byte load the key, whatever its length (rule R96). -/
theorem runCommands_loadKey {s : State} (key : List Byte) (h0 : s.err = 0) :
    runCommands s (.kclr :: key.map .kpush) =
      some ((s.loadKey key).complete 0, okResponses (fun _ => 0) (key.length + 1)) := by
  have hclear : transact s (encode .kclr) = some ((s.loadKey []).complete 0, ⟨true, 0⟩) :=
    transact_command (decode_encode _) (exec_kclr_loadKey h0 none) rfl
  have hpush := runCommands_chain (is := key.map .kpush) (st := fun k => s.loadKey (key.take k)) (data := fun _ => 0)
    (fun k hk => by
      have hk' : k < key.length := by simpa using hk
      rw [List.getElem_map, ← List.take_append_getElem hk']
      exact exec_kpush_loadKey _ _ h0 none)
    (some ⟨true, 0⟩)
  rw [runCommands_cons hclear hpush, okResponses_succ, List.length_map, List.take_length, okResponses_zero_getLast?_or]
  rfl

/-! ## Expanding the stored key (rules R140, R142, R150) -/

/-- A count saturated at 33 is a standard length when the length itself is (rules R24, R140). -/
theorem standardLength_min (n : Nat) : standardLength (min n 33) = standardLength n := by
  rw [Bool.eq_iff_iff]
  simp only [standardLength, Bool.or_eq_true, beq_iff_eq]
  omega

/-- The stored bytes and their saturated count determine the effective key (rule R142). -/
theorem storedEffectiveKey_of_prefix {key : List Byte} {keybuf : Vector Byte 32}
    (h : ∀ i : Fin 32, i.val < key.length → keybuf[i] = key.getD i.val 0) :
    storedEffectiveKey keybuf (min key.length 33) = effectiveKey key := by
  have htake (n : Nat) (hn : n ≤ 32) (hlen : n ≤ key.length) : keybuf.toList.take n = key.take n := by
    apply List.ext_getElem
    · simp; omega
    · intro i hi _
      have hlt : i < key.length ∧ i < 32 := by rw [List.length_take] at hi; omega
      simpa [List.getD_eq_getElem?_getD, hlt.1] using h ⟨i, hlt.2⟩ hlt.1
  unfold storedEffectiveKey effectiveKey
  rw [standardLength_min]
  split
  · next hstd =>
    have hlen : min key.length 33 = key.length ∧ key.length ≤ 32 := by
      simp only [standardLength, Bool.or_eq_true, beq_iff_eq] at hstd; omega
    rw [hlen.1, htake _ hlen.2 le_rfl, List.take_length]
  · have hmin : min (min key.length 33) 16 = min key.length 16 := by omega
    rw [hmin, htake _ (by omega) (by omega), List.take_eq_take_min (i := 16), Nat.min_comm 16]

/-- Coercing a key twice is coercing it once: an effective key has a standard length (rule R140). -/
theorem effectiveKey_effectiveKey (key : List Byte) : effectiveKey (effectiveKey key) = effectiveKey key := by
  have hstd : standardLength (effectiveKey key).length = true := by
    obtain h | h | h := effectiveKey_length key <;> rw [h] <;> rfl
  rw [effectiveKey, if_pos hstd]

/-- The expansion does not tell a key from its effective key. -/
theorem expand_effectiveKey (key : List Byte) : expand (effectiveKey key) = expand key := by
  rw [expand, expand, effectiveKey_effectiveKey]

/-- The key store with a raw key in it determines the key's effective key, so its expansion. -/
theorem expand_stored_loadKey (s : State) (key : List Byte) :
    expand (storedEffectiveKey (s.loadKey key).keybuf (s.loadKey key).klen.toNat) = expand key := by
  rw [State.loadKey_keybuf, State.loadKey_klen, keyCount_toNat,
    storedEffectiveKey_of_prefix fun i _ => keyCells_getElem key i i.isLt, expand_effectiveKey]

/-- The state with an expansion in RK, NR and NK, words past its last kept (rule R150). -/
def State.storeKeys (s : State) (ks : RoundKeySet) : State :=
  { s with rk := storeWords s.rk ks.words, nr := BitVec.ofNat 4 ks.nr, nk := BitVec.ofNat 4 ks.nk, rkv := true }

@[simp] theorem State.storeKeys_rk (s : State) (ks : RoundKeySet) : (s.storeKeys ks).rk = storeWords s.rk ks.words := rfl

/-- `KEXP` stores the expansion of the stored key. -/
theorem exec_kexp {s : State} (h0 : s.err = 0) :
    exec .kexp s = .next ((s.storeKeys (expand (storedEffectiveKey s.keybuf s.klen.toNat))).complete 0) :=
  command_ok (i := .kexp) h0

/-- `LDKEY` of any raw key loads it and stores its expansion (rules R81, R96, R150). -/
theorem runCommands_ldkey {s : State} (key : List Byte) (h0 : s.err = 0) :
    runCommands s (Pseudo.ldkey key).expand =
      some (((s.loadKey key).storeKeys (expand key)).complete 0,
        okResponses (fun _ => 0) (key.length + 1) ++ [⟨true, 0⟩]) := by
  have hkexp : transact ((s.loadKey key).complete 0) (encode .kexp) =
      some (((s.loadKey key).storeKeys (expand key)).complete 0, ⟨true, 0⟩) := by
    refine transact_command (decode_encode _) ?_ rfl
    rw [exec_kexp (by simpa using h0)]
    simp only [State.complete_keybuf, State.complete_klen, expand_stored_loadKey]
    rfl
  exact runCommands_append (runCommands_loadKey key h0) (runCommands_cons hkexp (runCommands_nil _))

/-- Settles O28: `KEXP` expands the effective key of the bytes pushed, which is that of the whole key. -/
theorem loadingAnyKeyExpandsIt : Obligations.LoadingAnyKeyExpandsIt := by
  unfold Obligations.LoadingAnyKeyExpandsIt
  intro s key h0
  obtain ⟨hnk, hnr⟩ := (expand_legalSizes key).toNat_ofNat
  refine ⟨_, _, runCommands_ldkey key h0, fun r hr => ?responses, rfl, hnr, hnk, fun i hi => ?words⟩
  case responses =>
    obtain hr | hr := List.mem_append.mp hr
    · obtain ⟨_, _, rfl⟩ := exists_of_mem_okResponses hr; rfl
    · exact List.mem_singleton.mp hr
  case words =>
    rw [State.complete_rk, State.storeKeys_rk, State.loadKey_rk]
    exact storeWords_getElem_of_lt s.rk (by rwa [expand_words_length])

end Sys2Proof.Machine
end

section
/-! Loading, encrypting and reading a block (rules R81, R99, R100, R183). -/

namespace Sys2Proof.Machine

/-! ## Loading and reading a block (rules R81, R99, R100) -/

/-- `BWR` of a cell of BLK (rule R99). -/
theorem exec_bwr {s : State} {a : Byte} (c : Byte) (h0 : s.err = 0) (ha : a.toNat < 16) :
    exec (.bwr a c) s = .next ((s.setBlk ⟨a.toNat, ha⟩ c).complete 0) := by
  rw [exec, execBwr, checkIndex_of_lt ha]
  exact command_ok h0

/-- `BRD` of a cell of BLK (rule R100). -/
theorem exec_brd {s : State} {a : Byte} (h0 : s.err = 0) (ha : a.toNat < 16) :
    exec (.brd a) s = .next (s.complete (zext8 s.blk[a.toNat])) := by
  rw [exec, execBrd, checkIndex_of_lt ha]
  exact command_ok h0

/-- `ENC` with valid round keys (rule R183). -/
theorem exec_enc {s : State} (h0 : s.err = 0) (hkey : s.rkv = true) :
    exec .enc s = .next (State.complete { s with
      st := cipher s.rk s.nr.toNat (toState s.blk),
      blk := fromState (cipher s.rk s.nr.toNat (toState s.blk)) } 0) := by
  rw [exec, execEnc, requireKey_of_valid hkey]
  exact command_ok h0

@[simp] theorem byteOfNat_toNat {n : Nat} (h : n < 256) : (byteOfNat n).toNat = n := by
  rw [byteOfNat, BitVec.toNat_ofNat]; omega

/-- The block with its first `k` bytes those of `d`, the others those of `b`. -/
def blockPrefix (b d : Block) (k : Nat) : Block := Vector.ofFn fun i => if i.val < k then d[i] else b[i]

@[simp] theorem blockPrefix_getElem (b d : Block) (k i : Nat) (h : i < 16) :
    (blockPrefix b d k)[i] = if i < k then d[i] else b[i] := by simp [blockPrefix]

theorem blockPrefix_zero (b d : Block) : blockPrefix b d 0 = b := by
  apply Vector.ext; intro i hi; simp

theorem blockPrefix_full (b d : Block) : blockPrefix b d 16 = d := by
  apply Vector.ext; intro i hi; simp [hi]

theorem blockPrefix_set (b d : Block) (k : Nat) (hk : k < 16) :
    (blockPrefix b d k).set k d[k] = blockPrefix b d (k + 1) := by
  apply Vector.ext
  intro i hi
  rw [Vector.getElem_set, blockPrefix_getElem, blockPrefix_getElem]
  obtain hlt | rfl | hgt := Nat.lt_trichotomy i k
  · rw [if_neg hlt.ne', if_pos hlt, if_pos (by omega)]
  · rw [if_pos rfl, if_pos (by omega)]
  · rw [if_neg hgt.ne, if_neg (by omega), if_neg (by omega)]

@[simp] theorem loadBlock_length (d : Block) : (loadBlock d).length = 16 := by simp [loadBlock]

@[simp] theorem readBlock_length : readBlock.length = 16 := by simp [readBlock]

theorem loadBlock_getElem (d : Block) {k : Nat} (hk : k < 16) (h : k < (loadBlock d).length) :
    (loadBlock d)[k] = .bwr (byteOfNat k) d[k] := by simp [loadBlock]

theorem readBlock_getElem {k : Nat} (h : k < readBlock.length) : readBlock[k] = .brd (byteOfNat k) := by simp [readBlock]

/-- Command `k` of `LDBLK` writes byte `k` of the block over the first `k` bytes. -/
theorem exec_bwr_blockPrefix {s : State} (d : Block) {k : Nat} (h0 : s.err = 0) (hk : k < 16) (port : Option Response) :
    exec (.bwr (byteOfNat k) d[k]) { s with blk := blockPrefix s.blk d k, rsp := port } =
      .next (State.complete { s with blk := blockPrefix s.blk d (k + 1) } 0) := by
  have hnat : (byteOfNat k).toNat = k := byteOfNat_toNat (by omega)
  rw [exec_bwr _ (by exact h0) (by omega), State.setBlk]
  simp only [hnat, blockPrefix_set]
  rfl

/-- `LDBLK` writes the block and changes nothing else. -/
theorem runCommands_loadBlock {s : State} (d : Block) (h0 : s.err = 0) :
    runCommands s (loadBlock d) = some (State.complete { s with blk := d } 0, okResponses (fun _ => 0) 16) := by
  have hchain := runCommands_chain (is := loadBlock d) (st := fun k => { s with blk := blockPrefix s.blk d k })
    (data := fun _ => 0) (fun k hk => by
      have hk' : k < 16 := by simpa using hk
      rw [loadBlock_getElem d hk']
      exact exec_bwr_blockPrefix d h0 hk' none) s.rsp
  rw [loadBlock_length, blockPrefix_zero, blockPrefix_full] at hchain
  exact hchain

/-- Command `k` of `RDBLK` responds with byte `k` of BLK. -/
theorem exec_brd_byteOfNat {s : State} {k : Nat} (h0 : s.err = 0) (hk : k < 16) (port : Option Response) :
    exec (.brd (byteOfNat k)) { s with rsp := port } = .next (s.complete (zext8 (s.blk.toList.getD k 0))) := by
  have hnat : (byteOfNat k).toNat = k := byteOfNat_toNat (by omega)
  have hcell : s.blk.toList.getD k 0 = s.blk[k] := by simp [List.getD_eq_getElem?_getD, hk]
  rw [exec_brd (by exact h0) (by omega), hcell]
  simp only [hnat]
  rfl

/-- `RDBLK` responds with the bytes of BLK in order and changes nothing else. -/
theorem runCommands_readBlock {s : State} (h0 : s.err = 0) :
    runCommands s readBlock = some (s.complete (zext8 s.blk[15]), s.blk.toList.map fun v => ⟨true, zext8 v⟩) := by
  have hchain := runCommands_chain (is := readBlock) (st := fun _ => s) (data := fun k => zext8 (s.blk.toList.getD k 0))
    (fun k hk => by
      rw [readBlock_getElem hk]
      exact exec_brd_byteOfNat h0 (by simpa using hk) none) s.rsp
  have hrs : okResponses (fun k => zext8 (s.blk.toList.getD k 0)) readBlock.length =
      s.blk.toList.map fun v => ⟨true, zext8 v⟩ := by
    apply List.ext_getElem
    · simp
    · intro k _ hk
      have hk' : k < 16 := by simpa using hk
      simp [okResponses, List.getD_eq_getElem?_getD, hk']
  have hlast : (s.blk.toList.map fun v => (⟨true, zext8 v⟩ : Response)).getLast? = some ⟨true, zext8 s.blk[15]⟩ := by
    simp [List.getLast?_eq_getElem?]
  rw [hrs, hlast] at hchain
  exact hchain

/-! ## One block through a pipeline command (rules R81, R183) -/

/-- Load a block, run a command that leaves `b` in BLK and `m` in ST, read the block: what `ENCBLK` and `DECBLK` do. -/
theorem runCommands_pass {s : State} {i : Instr} {d b : Block} {m : Matrix} (h0 : s.err = 0)
    (hi : exec i { s with blk := d, rsp := none } = .next (State.complete { s with blk := b, st := m } 0)) :
    runCommands s (loadBlock d ++ [i] ++ readBlock) = some (State.complete { s with blk := b, st := m } (zext8 b[15]),
      okResponses (fun _ => 0) 17 ++ b.toList.map fun v => ⟨true, zext8 v⟩) := by
  have hrun : transact (State.complete { s with blk := d } 0) (encode i) =
      some (State.complete { s with blk := b, st := m } 0, ⟨true, 0⟩) := transact_command (decode_encode i) hi rfl
  have hread := runCommands_readBlock (s := State.complete { s with blk := b, st := m } 0) h0
  exact runCommands_append (runCommands_append (runCommands_loadBlock d h0) (runCommands_cons hrun (runCommands_nil _))) hread

/-- Settles O57: the block loaded is the one `ENC` ciphers in place, and reading leaves it there. -/
theorem encryptingABlockRespondsWithTheCipher : Obligations.EncryptingABlockRespondsWithTheCipher := by
  unfold Obligations.EncryptingABlockRespondsWithTheCipher
  intro s d h0 hkey m
  have henc : exec .enc { s with blk := d, rsp := none } =
      .next (State.complete { s with blk := fromState m, st := m } 0) := exec_enc h0 hkey
  refine ⟨_, _, runCommands_pass h0 henc, fun r hr => ?ok, ?data, rfl⟩
  case ok =>
    obtain hr | hr := List.mem_append.mp hr
    · obtain ⟨_, _, rfl⟩ := exists_of_mem_okResponses hr; rfl
    · obtain ⟨v, _, rfl⟩ := List.mem_map.mp hr; rfl
  case data =>
    rw [List.drop_left' (by simp), List.map_map]
    rfl

end Sys2Proof.Machine
end

section
/-! Control and access commands one by one: NOP, the key store, and the cells of RK, BLK and ST (rules R91 to R102). -/

namespace Sys2Proof.Machine

/-! ## NOP and the key store (rules R91, R94 to R96, R98) -/

/-- Settles O18: the rule of `NOP` is `done`, and only the port shows that it ran. -/
theorem nopOnlyResponds : Obligations.NopOnlyResponds := by
  unfold Obligations.NopOnlyResponds
  exact fun _ h0 => command_ok (i := .nop) h0

/-- Settles O20: every cell of the cleared store is the 0 it is filled with. -/
theorem kclrClearsTheKeyStore : Obligations.KclrClearsTheKeyStore := by
  unfold Obligations.KclrClearsTheKeyStore
  exact fun _ h0 => ⟨_, exec_kclr h0, fun i => Vector.getElem_replicate i.isLt, rfl⟩

/-- A pushed byte goes to the cell at `KLEN`, which is none of the 32 once `KLEN` is past them (rule R95). -/
theorem storeKeyByte_getElem (keybuf : Vector Byte 32) (klen : BitVec 6) (c : Byte) (i : Fin 32) :
    (storeKeyByte keybuf klen c)[i] = if i.val = klen.toNat then c else keybuf[i] := by
  unfold storeKeyByte
  split
  · simp only [Fin.getElem_fin, Vector.getElem_set, eq_comm]
  · next h => rw [if_neg (by omega)]

/-- `KLEN` counts as a natural number up to 33, which fits in its 6 bits (rules R24, R95). -/
theorem nextKlen_toNat (klen : BitVec 6) : (nextKlen klen).toNat = min (klen.toNat + 1) 33 := by
  rw [nextKlen, BitVec.toNat_ofNat]
  unfold Config.klenSat; omega

/-- Settles O21: by the cells and the count a pushed byte leaves. -/
theorem kpushAppendsOneKeyByte : Obligations.KpushAppendsOneKeyByte := by
  unfold Obligations.KpushAppendsOneKeyByte
  exact fun s c h0 => ⟨_, exec_kpush c h0, storeKeyByte_getElem s.keybuf s.klen c, nextKlen_toNat s.klen, rfl⟩

/-- Settles O22: the load leaves the state with the key in its store, whose cells past the key's end read 0. -/
theorem loadingAKeyFillsTheKeyStore : Obligations.LoadingAKeyFillsTheKeyStore := by
  unfold Obligations.LoadingAKeyFillsTheKeyStore
  intro s key h0
  refine ⟨_, _, runCommands_loadKey key h0, fun r hr => ?responses, keyCount_toNat key, fun i => ?cells, rfl⟩
  case responses => obtain ⟨_, _, rfl⟩ := exists_of_mem_okResponses hr; rfl
  case cells =>
    rw [State.complete_keybuf, State.loadKey_keybuf, Fin.getElem_fin, keyCells_getElem]
    split
    · rfl
    · exact List.getD_eq_default _ _ (by omega)

/-- `RKRD` of a word of the current schedule (rule R98). -/
theorem exec_rkrd {s : State} {a : Byte} (h0 : s.err = 0) (hkey : s.rkv = true) (hlimit : a.toNat < validWords s)
    (ha : a.toNat < 60) : exec (.rkrd a) s = .next (s.complete s.rk[a.toNat]) := by
  rw [exec, execRkrd, checkIndex_of_lt ha, requireKey_of_valid hkey, checkLimit_of_lt hlimit]
  exact command_ok h0

/-- Settles O23: a word of the current schedule passes all three checks of `RKRD`. -/
theorem rkrdRespondsWithTheWord : Obligations.RkrdRespondsWithTheWord := by
  unfold Obligations.RkrdRespondsWithTheWord
  exact fun s a h0 hkey hlimit ha => exec_rkrd h0 hkey hlimit ha

/-! ## The cells of BLK and ST (rules R99 to R102) -/

/-- Settles O29: an index below 16 passes the check, and the write is `State.setBlk`. -/
theorem blockCellsAreReadAndWritten : Obligations.BlockCellsAreReadAndWritten := by
  unfold Obligations.BlockCellsAreReadAndWritten
  refine fun s a c h0 ha => ⟨⟨_, exec_bwr c h0 ha, fun j => ?cells, rfl⟩, exec_brd h0 ha⟩
  case cells => simp only [State.complete_blk, State.blk_setBlk, Fin.ext_iff]

/-- An operand that is a cell's number names that cell (rule R62). -/
theorem checkIndex_of_eq {n : Nat} {a : Byte} {i : Fin n} (h : a.toNat = i.val) : checkIndex n a = .ok i := by
  rw [checkIndex_of_lt (h ▸ i.isLt)]
  exact congrArg Except.ok (Fin.ext h)

/-- `SWR` of a cell of ST (rule R101). -/
theorem exec_swr {s : State} {a b : Byte} {row col : Fin 4} (c : Byte) (h0 : s.err = 0) (ha : a.toNat = row.val)
    (hb : b.toNat = col.val) : exec (.swr a b c) s = .next ((s.setSt row col c).complete 0) := by
  rw [exec, execSwr, checkIndex_of_eq ha, checkIndex_of_eq hb]
  exact command_ok h0

/-- `SRD` of a cell of ST (rule R102). -/
theorem exec_srd {s : State} {a b : Byte} {row col : Fin 4} (h0 : s.err = 0) (ha : a.toNat = row.val)
    (hb : b.toNat = col.val) : exec (.srd a b) s = .next (s.complete (zext8 (Matrix.cell s.st row col))) := by
  rw [exec, execSrd, checkIndex_of_eq ha, checkIndex_of_eq hb]
  exact command_ok h0

/-- Settles O30: row and column pass their checks, and the write is `State.setSt`. -/
theorem stateCellsAreReadAndWritten : Obligations.StateCellsAreReadAndWritten := by
  unfold Obligations.StateCellsAreReadAndWritten
  intro s a b c row col h0 ha hb
  exact ⟨⟨_, exec_swr c h0 ha hb, fun r k => State.cell_setSt s row col r k c, rfl⟩, exec_srd h0 ha hb⟩

end Sys2Proof.Machine
end

section
/-! What commands make of the raw key bytes (rules R97, R244). -/

namespace Sys2Proof.Machine

/-- The state with other raw key bytes. -/
def State.withKeyBytes (s : State) (kb : Vector Byte 32) : State := { s with keybuf := kb }

@[simp] theorem State.withKeyBytes_err (s : State) (kb : Vector Byte 32) : (s.withKeyBytes kb).err = s.err := rfl

/-- No CSR shows a key byte (rules R33 to R37). -/
@[simp] theorem csr_withKeyBytes (s : State) (kb : Vector Byte 32) (n : Fin 5) : csr (s.withKeyBytes kb) n = csr s n := by
  fin_cases n <;> rfl

/-- A rule whose outcome, fault or data, does not depend on the key bytes, and whose next state does at most in its own key
bytes. -/
def Rule.IgnoresKeyBytes (rule : State → Rule) : Prop :=
  ∀ s kb, ∃ kb', rule (s.withKeyBytes kb) = (rule s).map fun p => (p.1.withKeyBytes kb', p.2)

/-- A rule that always raises a fault ignores the key bytes. -/
theorem Rule.IgnoresKeyBytes.error {e : FaultCode} : Rule.IgnoresKeyBytes fun _ => .error e := fun _ kb => ⟨kb, rfl⟩

/-- A rule without checks ignores the key bytes when its data does and its writes let them into no other store. -/
theorem Rule.IgnoresKeyBytes.ok {next : State → State} {value : State → Word}
    (hvalue : ∀ s kb, value (s.withKeyBytes kb) = value s)
    (hnext : ∀ s kb, ∃ kb', next (s.withKeyBytes kb) = (next s).withKeyBytes kb') :
    Rule.IgnoresKeyBytes fun s => .ok (next s, value s) := by
  intro s kb
  obtain ⟨kb', e⟩ := hnext s kb
  exact ⟨kb', by simp only [hvalue, e, Except.map]⟩

/-- A check that does not look at the key bytes may stand before a rule that ignores them. -/
theorem Rule.IgnoresKeyBytes.bind {α : Type} {check : State → Except FaultCode α} {rule : α → State → Rule}
    (hcheck : ∀ s kb, check (s.withKeyBytes kb) = check s) (h : ∀ a, Rule.IgnoresKeyBytes (rule a)) :
    Rule.IgnoresKeyBytes fun s => check s >>= fun a => rule a s := by
  intro s kb
  simp only [hcheck]
  cases check s with
  | ok a => exact h a s kb
  | error e => exact ⟨kb, rfl⟩

/-- From any state and with any other key bytes in it, the command leads to next states that differ at most in their key
bytes. -/
def ExecIgnoresKeyBytes (i : Instr) : Prop :=
  ∀ s kb, ∃ t kb', exec i s = .next t ∧ exec i (s.withKeyBytes kb) = .next (t.withKeyBytes kb')

/-- A command ignores the key bytes when its own rule does: refusal and fault entry do not look at them either (rules R236,
R237). -/
theorem ExecIgnoresKeyBytes.of_rule {i : Instr} {rule : State → Rule} (hrule : ∀ s, exec i s = command i s (rule s))
    (hr : Rule.IgnoresKeyBytes rule) : ExecIgnoresKeyBytes i := by
  intro s kb
  simp only [hrule]
  by_cases h0 : s.err = 0
  · obtain ⟨kb', e⟩ := hr s kb
    have h0' : (s.withKeyBytes kb).err = 0 := by rwa [State.withKeyBytes_err]
    rw [e]
    cases rule s with
    | ok p => exact ⟨_, kb', command_ok h0, command_ok h0'⟩
    | error code => exact ⟨_, kb, command_error h0, command_error h0'⟩
  · exact ⟨_, kb, command_faulted h0, command_faulted (by rwa [State.withKeyBytes_err])⟩

/-- `CSRR` ignores the key bytes, of an existing CSR or past the last (rules R62, R92). -/
theorem exec_csrr_ignoresKeyBytes (a : Byte) : ExecIgnoresKeyBytes (.csrr a) := by
  by_cases ha : a.toNat < 5
  · intro s kb
    refine ⟨_, kb, exec_csrr_of_lt s ha, ?_⟩
    rw [exec_csrr_of_lt _ ha, csr_withKeyBytes]
    rfl
  · exact .of_rule (fun s => exec_csrr_of_ge s (Nat.not_lt.mp ha)) .error

/-- Every command but `KEXP` keeps the key bytes out of its response and of all other state (rules R97, R244). -/
theorem exec_ignoresKeyBytes_of_ne_kexp {i : Instr} (h : i ≠ .kexp) : ExecIgnoresKeyBytes i := by
  cases i
  case kexp => exact absurd rfl h
  case srst => exact fun s kb => ⟨_, State.reset.keybuf, rfl, rfl⟩
  case csrr a => exact exec_csrr_ignoresKeyBytes a
  -- the key store: its own next cells are all that may differ
  case kclr => exact .of_rule (fun _ => rfl) (.ok (fun _ _ => rfl) fun _ _ => ⟨Vector.replicate 32 0, rfl⟩)
  case kpush c =>
    exact .of_rule (fun _ => rfl) (.ok (fun _ _ => rfl) fun s kb => ⟨storeKeyByte kb s.klen c, rfl⟩)
  -- the XOR commands that may fault ask for XKLEN only
  case xkpush v | xstep v =>
    refine .of_rule (fun _ => rfl) fun s kb => ⟨kb, ?_⟩
    rw [apply_dite (Except.map _)]
    rfl
  -- all others neither read nor write the key bytes, after no check, one, two or three
  case nop | tost | frst | subb | isubb | shr | ishr | mixc | imixc | gfmul | sbox | isbox | xkclr | xrst =>
    exact .of_rule (fun _ => rfl) (.ok (fun _ _ => rfl) fun _ kb => ⟨kb, rfl⟩)
  case bwr | brd | enc | dec | rcon =>
    exact .of_rule (fun _ => rfl) (.bind (fun _ _ => rfl) fun _ => .ok (fun _ _ => rfl) fun _ kb => ⟨kb, rfl⟩)
  case swr | srd =>
    exact .of_rule (fun _ => rfl)
      (.bind (fun _ _ => rfl) fun _ => .bind (fun _ _ => rfl) fun _ => .ok (fun _ _ => rfl) fun _ kb => ⟨kb, rfl⟩)
  case rkrd | ark =>
    exact .of_rule (fun _ => rfl)
      (.bind (fun _ _ => rfl) fun _ => .bind (fun _ _ => rfl) fun _ => .bind (fun _ _ => rfl) fun _ =>
        .ok (fun _ _ => rfl) fun _ kb => ⟨kb, rfl⟩)

/-- A faulted engine refuses `KEXP` (rule R237). -/
theorem exec_kexp_faulted {s : State} (h : s.err ≠ 0) : exec .kexp s = .next s.refuse := by
  rw [exec, execKexp]
  exact command_faulted h

/-- `KEXP` responds `(1, 0)`, or is refused with `ERR`, whatever the key bytes are (rules R150, R237). -/
theorem exec_kexp_rsp (s : State) : ∃ t, exec .kexp s = .next t ∧
    t.rsp = some (if s.err = 0 then ⟨true, 0⟩ else ⟨false, zext8 s.err⟩) := by
  by_cases h0 : s.err = 0
  · exact ⟨_, exec_kexp h0, by rw [if_pos h0, State.complete_rsp]⟩
  · exact ⟨_, exec_kexp_faulted h0, by rw [if_neg h0, State.refuse_rsp]⟩

/-- Settles O50: every command but `KEXP` ignores the key bytes, and `KEXP` does not respond with what it computes. -/
theorem noResponseDependsDirectlyOnTheKeyBytes : Obligations.NoResponseDependsDirectlyOnTheKeyBytes := by
  unfold Obligations.NoResponseDependsDirectlyOnTheKeyBytes
  intro i s kb
  by_cases hi : i = .kexp
  · subst hi
    obtain ⟨t, ht, hrsp⟩ := exec_kexp_rsp s
    obtain ⟨t', ht', hrsp'⟩ := exec_kexp_rsp { s with keybuf := kb }
    exact ⟨t, t', ht, ht', hrsp'.trans hrsp.symm, fun h => absurd rfl h⟩
  · obtain ⟨t, kb', ht, ht'⟩ := exec_ignoresKeyBytes_of_ne_kexp hi s kb
    exact ⟨t, t.withKeyBytes kb', ht, ht', rfl, fun _ => rfl⟩

end Sys2Proof.Machine
end

section
/-! GF(2^8): the peasant loop as a recursion on the second factor, the laws of the product, its form as a reduced product of
polynomials, and the primitives' commands (rules R110 to R114, R124 to R126). -/

namespace Sys2Proof.Machine

/-! ## Terms that are added only when a bit is set -/

/-- Adding a term under a bit is adding the term or 0. -/
theorem ite_xor_eq_xor_ite {w : Nat} (p : Bool) (v k : BitVec w) :
    (if p then v ^^^ k else v) = v ^^^ if p then k else 0 := by
  cases p <;> simp

/-- The term of a sum of two bits is the sum of their terms. -/
theorem ite_xor_bits {w : Nat} (p q : Bool) (k : BitVec w) :
    (if p ^^ q then k else 0) = (if p then k else 0) ^^^ if q then k else 0 := by
  cases p <;> cases q <;> simp

/-- The term of a sum is the sum of the terms. -/
theorem ite_xor_terms {w : Nat} (p : Bool) (j k : BitVec w) :
    (if p then j ^^^ k else 0) = (if p then j else 0) ^^^ if p then k else 0 := by
  cases p <;> simp

/-! ## The product by halving its second factor (rules R111, R112) -/

/-- Multiplication by x is additive. -/
theorem xtime_xor (a b : Byte) : xtime (a ^^^ b) = xtime a ^^^ xtime b := by
  simp only [xtime, BitVec.shiftLeft_xor_distrib, BitVec.getLsbD_xor, ite_xor_bits]
  ac_rfl

/-- `xtime` goes through a bit. -/
theorem xtime_ite (p : Bool) (a : Byte) : xtime (if p then a else 0) = if p then xtime a else 0 := by
  rw [apply_ite xtime]
  rfl

/-- What the loop has summed up so far is added to the sum of what is left. -/
theorem gfmulLoop_eq_xor (n : Nat) (a b p : Byte) : gfmulLoop n a b p = gfmulLoop n a b 0 ^^^ p := by
  induction n generalizing a b p with
  | zero => simp [gfmulLoop]
  | succ n ih =>
    rw [gfmulLoop, gfmulLoop, ih, ih _ _ (if b.getLsbD 0 then _ else _), ite_xor_eq_xor_ite, ite_xor_eq_xor_ite]
    simp only [BitVec.ofNat_eq_ofNat, BitVec.zero_xor]
    ac_rfl

/-- One more time round adds nothing once all set bits of `b` are used up. -/
theorem gfmulLoop_succ {n : Nat} {a b p : Byte} (h : b >>> n = 0) : gfmulLoop (n + 1) a b p = gfmulLoop n a b p := by
  induction n generalizing a b p with
  | zero =>
    obtain rfl : b = 0 := by simpa using h
    simp [gfmulLoop]
  | succ n ih =>
    have hhalf : b >>> 1 >>> n = 0 := by rw [← BitVec.shiftRight_add, Nat.add_comm, h]
    rw [gfmulLoop, ih hhalf]
    rfl

/-- A byte has eight bits. -/
theorem byte_shiftRight_eight (b : Byte) : b >>> 8 = 0 := BitVec.ushiftRight_eq_zero (Nat.le_refl 8)

/-- The peasant's rule: double one factor, halve the other, and add the first where the second is odd. -/
theorem gfmul_halve (a b : Byte) : gfmul a b = gfmul (xtime a) (b >>> 1) ^^^ if b.getLsbD 0 then a else 0 := by
  calc gfmul a b = gfmulLoop 9 a b 0 := (gfmulLoop_succ (byte_shiftRight_eight b)).symm
    _ = gfmulLoop 8 (xtime a) (b >>> 1) (if b.getLsbD 0 then 0 ^^^ a else 0) := rfl
    _ = gfmul (xtime a) (b >>> 1) ^^^ if b.getLsbD 0 then a else 0 := by
      rw [gfmulLoop_eq_xor, ite_xor_eq_xor_ite]; simp [gfmul]

/-- Induction on a byte by halving it down to 0. -/
theorem halving_induction {P : Byte → Prop} (zero : P 0#8) (halve : ∀ b : Byte, P (b >>> 1) → P b) (b : Byte) : P b := by
  have descend (n : Nat) : ∀ b : Byte, b >>> n = 0 → P b := by
    induction n with
    | zero => intro b h; rw [BitVec.ushiftRight_zero] at h; exact h ▸ zero
    | succ n ih => exact fun b h => halve b (ih _ (by rw [← BitVec.shiftRight_add, Nat.add_comm, h]))
  exact descend 8 b (byte_shiftRight_eight b)

/-- A byte is twice its half plus its lowest bit. -/
theorem xtime_half_xor_bit (b : Byte) : xtime (b >>> 1) ^^^ (if b.getLsbD 0 then 1 else 0) = b := by
  apply BitVec.eq_of_getLsbD_eq
  intro i hi
  have htop : (b >>> 1).getLsbD 7 = false := by simp
  rw [xtime, htop]
  cases i with
  | zero => cases b.getLsbD 0 <;> simp
  | succ i => cases b.getLsbD 0 <;> simp [hi, Nat.add_comm 1]

/-! ## The laws of the product (rule R113) -/

@[simp] theorem gfmul_zero (a : Byte) : gfmul a 0#8 = 0#8 := by simp [gfmul, gfmulLoop]

@[simp] theorem gfmul_one (a : Byte) : gfmul a 1#8 = a := by simp [gfmul, gfmulLoop]

/-- The product is additive in its first factor. -/
theorem gfmul_xor_left (a a' b : Byte) : gfmul (a ^^^ a') b = gfmul a b ^^^ gfmul a' b := by
  induction b using halving_induction generalizing a a' with
  | zero => simp
  | halve b ih =>
    rw [gfmul_halve, xtime_xor, ih, ite_xor_terms, gfmul_halve a, gfmul_halve a']
    ac_rfl

/-- Doubling the first factor doubles the product. -/
theorem gfmul_xtime_left (a b : Byte) : gfmul (xtime a) b = xtime (gfmul a b) := by
  induction b using halving_induction generalizing a with
  | zero => rw [gfmul_zero, gfmul_zero]; rfl
  | halve b ih => rw [gfmul_halve, ih, gfmul_halve a, xtime_xor, xtime_ite]

@[simp] theorem zero_gfmul (b : Byte) : gfmul 0#8 b = 0#8 := by
  simpa using gfmul_xor_left 0 0 b

@[simp] theorem one_gfmul (b : Byte) : gfmul 1#8 b = b := by
  induction b using halving_induction with
  | zero => simp
  | halve b ih => rw [gfmul_halve, gfmul_xtime_left, ih]; exact xtime_half_xor_bit b

/-- A term under a bit is the product with the bit. -/
theorem ite_gfmul (p : Bool) (a : Byte) : gfmul (if p then 1 else 0) a = if p then a else 0 := by
  cases p <;> simp

/-- Law 2: both products obey the same rule for halving `a`. -/
theorem gfmul_comm (a b : Byte) : gfmul a b = gfmul b a := by
  induction a using halving_induction with
  | zero => simp
  | halve a ih =>
    calc gfmul a b = gfmul (xtime (a >>> 1) ^^^ if a.getLsbD 0 then 1 else 0) b := by rw [xtime_half_xor_bit]
      _ = xtime (gfmul b (a >>> 1)) ^^^ if a.getLsbD 0 then b else 0 := by
        rw [gfmul_xor_left, gfmul_xtime_left, ih, ite_gfmul]
      _ = gfmul b a := by rw [gfmul_halve b a, gfmul_xtime_left]

/-- Law 4, from the other factor. -/
theorem gfmul_xor_right (a b c : Byte) : gfmul a (b ^^^ c) = gfmul a b ^^^ gfmul a c := by
  rw [gfmul_comm, gfmul_xor_left, gfmul_comm b, gfmul_comm c]

/-- Doubling the second factor doubles the product. -/
theorem gfmul_xtime_right (a b : Byte) : gfmul a (xtime b) = xtime (gfmul a b) := by
  rw [gfmul_comm, gfmul_xtime_left, gfmul_comm]

/-- Law 3: both sides obey the same rule for halving `c`. -/
theorem gfmul_assoc (a b c : Byte) : gfmul (gfmul a b) c = gfmul a (gfmul b c) := by
  induction c using halving_induction with
  | zero => simp
  | halve c ih =>
    rw [gfmul_halve, gfmul_halve b, gfmul_xor_right, gfmul_xtime_left, gfmul_xtime_left, gfmul_xtime_right, ih,
      apply_ite (gfmul a)]
    simp

/-- The field inverse read off the S-box: its affine map undone (rule R123 item 2). -/
def gfInverse (a : Byte) : Byte := (sbox a).rotateLeft 1 ^^^ (sbox a).rotateLeft 3 ^^^ (sbox a).rotateLeft 6 ^^^ 0x05

/-- Each of the 255 products is 1. -/
theorem gfmul_gfInverse : ∀ a : Byte, a ≠ 0 → gfmul a (gfInverse a) = 1 := by decide

/-- A non-zero factor cancels (laws 5 and 6). -/
theorem gfInverse_gfmul_cancel {a : Byte} (ha : a ≠ 0) (b : Byte) : gfmul (gfInverse a) (gfmul a b) = b := by
  rw [← gfmul_assoc, gfmul_comm _ a, gfmul_gfInverse a ha]
  exact one_gfmul b

/-- Settles O44: laws 5 and 6 by cancelling, law 7 by writing each constant as a sum of doublings of 1. -/
theorem gfmulHasTheFieldLaws : Obligations.GfmulHasTheFieldLaws := by
  unfold Obligations.GfmulHasTheFieldLaws
  refine ⟨fun a => ⟨gfmul_zero a, zero_gfmul a, gfmul_one a, one_gfmul a⟩, gfmul_comm, gfmul_assoc, gfmul_xor_right,
    fun a b h => ?noZeroDivisors, fun a ha => ⟨gfInverse a, gfmul_gfInverse a ha, fun c h => ?unique⟩, fun a => ?small,
    fun a => ?large⟩
  case noZeroDivisors =>
    refine or_iff_not_imp_left.mpr fun ha => ?_
    rw [← gfInverse_gfmul_cancel ha b, h]
    exact gfmul_zero _
  case unique =>
    rw [← gfInverse_gfmul_cancel ha c, h]
    exact gfmul_one _
  case small =>
    have h2 : 2 = xtime 1#8 := rfl
    have h3 : 3 = xtime 1#8 ^^^ 1#8 := rfl
    simp only [h2, h3, gfmul_xor_right, gfmul_xtime_right, gfmul_one, and_self]
  case large =>
    have h9 : 9 = xtime (xtime (xtime 1#8)) ^^^ 1#8 := rfl
    have h11 : 11 = xtime (xtime (xtime 1#8)) ^^^ xtime 1#8 ^^^ 1#8 := rfl
    have h13 : 13 = xtime (xtime (xtime 1#8)) ^^^ xtime (xtime 1#8) ^^^ 1#8 := rfl
    have h14 : 14 = xtime (xtime (xtime 1#8)) ^^^ xtime (xtime 1#8) ^^^ xtime 1#8 := rfl
    simp only [h9, h11, h13, h14, gfmul_xor_right, gfmul_xtime_right, gfmul_one, and_self]

/-! ## The product as a reduced product of polynomials (rule R110) -/

/-- A step of the long division is additive. -/
theorem polyReduceAt_xor (v w : BitVec 16) (k : Nat) :
    polyReduceAt (v ^^^ w) k = polyReduceAt v k ^^^ polyReduceAt w k := by
  simp only [polyReduceAt, BitVec.getLsbD_xor, ite_xor_eq_xor_ite, ite_xor_bits]
  ac_rfl

/-- So is the remainder. -/
theorem polyMod_xor (v w : BitVec 16) : polyMod (v ^^^ w) = polyMod v ^^^ polyMod w := by
  simp only [polyMod, List.foldl_cons, List.foldl_nil, polyReduceAt_xor, BitVec.setWidth_xor]

/-- Removing a term and doubling is doubling and removing the term above it. -/
theorem polyReduceAt_shiftLeft_one (v : BitVec 16) {k : Nat} (hk : k < 7) :
    polyReduceAt (v <<< 1) (k + 1) = polyReduceAt v k <<< 1 := by
  have hbit : (v <<< 1).getLsbD (8 + (k + 1)) = v.getLsbD (8 + k) := by
    rw [BitVec.getLsbD_shiftLeft, ← Nat.add_assoc]
    simp [show 8 + k + 1 < 16 by omega]
  have hdivisor : BitVec.ofNat 16 (0x11B <<< (k + 1)) = BitVec.ofNat 16 (0x11B <<< k) <<< 1 := by
    apply BitVec.eq_of_toNat_eq
    simp [Nat.shiftLeft_succ, Nat.shiftLeft_eq]
  simp only [polyReduceAt, hbit]
  split
  · rw [BitVec.shiftLeft_xor_distrib]; exact congrArg _ hdivisor
  · rfl

/-- The last step of the division of a doubled remainder is `xtime`. -/
theorem polyReduceAt_zero_shiftLeft_one (r : BitVec 16) :
    (polyReduceAt (r <<< 1) 0).setWidth 8 = xtime (r.setWidth 8) := by
  have hbit : (r <<< 1).getLsbD (8 + 0) = (r.setWidth 8).getLsbD 7 := by simp
  rw [polyReduceAt, xtime, hbit, ite_xor_eq_xor_ite, BitVec.setWidth_xor]
  have hshift : (r <<< 1).setWidth 8 = r.setWidth 8 <<< 1 := by
    ext i hi
    simp [BitVec.getElem_shiftLeft]
  rw [hshift, apply_ite (BitVec.setWidth 8)]
  rfl

/-- Doubling a polynomial doubles its remainder. -/
theorem polyMod_shiftLeft_one {v : BitVec 16} (h : v.getLsbD 14 = false) : polyMod (v <<< 1) = xtime (polyMod v) := by
  have htop : polyReduceAt v 6 = v := by rw [polyReduceAt, h]; rfl
  have hsteps : ([6, 5, 4, 3, 2, 1] : List Nat).foldl polyReduceAt (v <<< 1) =
      ([5, 4, 3, 2, 1, 0] : List Nat).foldl polyReduceAt v <<< 1 := by
    simp [polyReduceAt_shiftLeft_one]
  calc polyMod (v <<< 1) = (polyReduceAt (([6, 5, 4, 3, 2, 1] : List Nat).foldl polyReduceAt (v <<< 1)) 0).setWidth 8 := rfl
    _ = xtime ((([5, 4, 3, 2, 1, 0] : List Nat).foldl polyReduceAt v).setWidth 8) := by
      rw [hsteps, polyReduceAt_zero_shiftLeft_one]
    _ = xtime (polyMod v) := by simp only [polyMod, List.foldl_cons, htop]

/-- One term of the schoolbook product. -/
def polyMulStep (a b : Byte) (acc : BitVec 16) (i : Nat) : BitVec 16 :=
  if b.getLsbD i then acc ^^^ (a.setWidth 16 <<< i) else acc

/-- The schoolbook product adds its terms in order. -/
theorem polyMul_eq_foldl (a b : Byte) : polyMul a b = (List.range' 0 8).foldl (polyMulStep a b) 0 := rfl

/-- A byte is its own remainder. -/
theorem polyMod_byte (a : Byte) : polyMod (a.setWidth 16) = a := by
  have hfix (k : Nat) : polyReduceAt (a.setWidth 16) k = a.setWidth 16 := by simp [polyReduceAt]
  simp [polyMod, hfix]

/-- The remainder of a sum with one more term: the sum of the remainders, where the term's bit is set. -/
theorem polyMod_polyMulStep (a b : Byte) (acc : BitVec 16) (i : Nat) :
    polyMod (polyMulStep a b acc i) =
      if (b >>> i).getLsbD 0 then polyMod acc ^^^ polyMod (a.setWidth 16 <<< i) else polyMod acc := by
  rw [polyMulStep, apply_ite polyMod, polyMod_xor]
  simp

/-- From bit `i` on, the peasant loop sums the remainders of the terms that the schoolbook product sums. -/
theorem gfmulLoop_eq_polyMod_foldl {n i : Nat} (a b : Byte) (acc : BitVec 16) (h : i + n ≤ 7) :
    gfmulLoop (n + 1) (polyMod (a.setWidth 16 <<< i)) (b >>> i) (polyMod acc) =
      polyMod ((List.range' i (n + 1)).foldl (polyMulStep a b) acc) := by
  induction n generalizing i acc with
  | zero => exact (polyMod_polyMulStep a b acc i).symm
  | succ n ih =>
    have htop : (a.setWidth 16 <<< i).getLsbD 14 = false := by
      rw [BitVec.getLsbD_shiftLeft, BitVec.getLsbD_setWidth, BitVec.getLsbD_of_ge a (14 - i) (by omega)]
      simp only [Bool.and_false]
    rw [gfmulLoop, ← polyMod_polyMulStep, ← polyMod_shiftLeft_one htop, ← BitVec.shiftLeft_add, ← BitVec.shiftRight_add,
      ih _ (by omega)]
    rfl

/-- Settles O43: the peasant loop and the schoolbook product, both from bit 0 on. -/
theorem gfmulIsTheReducedPolynomialProduct : Obligations.GfmulIsTheReducedPolynomialProduct := by
  unfold Obligations.GfmulIsTheReducedPolynomialProduct
  intro a b
  calc gfmul a b = gfmulLoop 8 (polyMod (a.setWidth 16 <<< 0)) (b >>> 0) (polyMod 0) := by
        rw [BitVec.shiftLeft_zero, polyMod_byte]
        rfl
    _ = polyMod (polyMul a b) := by rw [polyMul_eq_foldl, gfmulLoop_eq_polyMod_foldl a b 0 (Nat.le_refl 7)]

/-! ## The primitives' commands (rules R114, R124 to R126) -/

/-- Settles O42: the rules respond with the value without a check, or after the check of the index of `RCON`. -/
theorem primitivesRespondAndChangeNothing : Obligations.PrimitivesRespondAndChangeNothing := by
  unfold Obligations.PrimitivesRespondAndChangeNothing
  refine fun s h0 => ⟨fun a c => command_ok (i := .gfmul a c) h0, fun c => command_ok (i := .sbox c) h0,
    fun c => command_ok (i := .isbox c) h0, fun a n ha => ?_⟩
  rw [exec, execRcon, checkIndex_of_eq ha]
  exact command_ok h0

end Sys2Proof.Machine
end

section
/-! The checks of the tables: the S-boxes as permutations of the bytes, what the sums over a table owe to that, and the affine
construction (rules R122, R123). -/

namespace Sys2Proof.Machine

/-! ## Inverse permutations (rule R123 item 1) -/

/-- Looking each entry of the S-box up in the inverse table gives its index back. -/
theorem invSbox_sbox : Function.LeftInverse invSbox sbox := by
  unfold Function.LeftInverse
  decide

/-- So the S-box is one to one on the finite set of bytes, hence onto, and the inverse table is its inverse from both sides. -/
theorem sbox_invSbox : Function.RightInverse invSbox sbox :=
  invSbox_sbox.rightInverse_of_surjective (Finite.surjective_of_injective invSbox_sbox.injective)

/-! ## The affine construction (rule R123 item 2) -/

/-- The affine map takes what `gfInverse` read off the S-box back to the S-box. -/
theorem sbox_eq_sboxAffine_gfInverse : ∀ x : Byte, sbox x = sboxAffine (gfInverse x) := by decide

/-- A factor of a product 1 has the other factor as its `gfInverse`. -/
theorem gfInverse_eq_of_gfmul_eq_one {x y : Byte} (h : gfmul x y = 1) : gfInverse x = y := by
  have hx : x ≠ 0 := by
    rintro rfl
    exact absurd ((zero_gfmul y).symm.trans h) (by decide)
  calc gfInverse x = gfmul (gfInverse x) (gfmul x y) := by rw [h]; exact (gfmul_one _).symm
    _ = y := gfInverse_gfmul_cancel hx y

/-- No entry is its index or the complement of its index (rule R123 item 3). -/
theorem sbox_ne_self_and_ne_complement : ∀ x : Byte, sbox x ≠ x ∧ sbox x ≠ x ^^^ 0xFF := by decide

/-! ## Sums over a table that is a permutation (rule R123 item 4) -/

/-- The entries of a table in the order of their indices, as numbers. -/
def tableEntries (T : Byte → Byte) : List Nat := (List.range 256).map fun i => (T (BitVec.ofNat 8 i)).toNat

/-- The entries of a table without repetitions are the numbers below 256 in some order. -/
theorem tableEntries_perm_range {T : Byte → Byte} (hT : T.Injective) : (tableEntries T).Perm (List.range 256) := by
  have hnodup : (tableEntries T).Nodup := by
    refine List.Nodup.map_on (fun i hi j hj h => ?_) List.nodup_range
    have hij : BitVec.ofNat 8 i = BitVec.ofNat 8 j := hT (BitVec.eq_of_toNat_eq h)
    rw [List.mem_range] at hi hj
    simpa [Nat.mod_eq_of_lt, hi, hj] using congrArg BitVec.toNat hij
  have hbelow : tableEntries T ⊆ List.range 256 := by
    intro n hn
    obtain ⟨i, -, rfl⟩ := List.mem_map.mp hn
    exact List.mem_range.mpr (T (BitVec.ofNat 8 i)).isLt
  exact (List.subperm_of_subset hnodup hbelow).perm_of_length_le (by simp [tableEntries])

/-- Their sum is that of the numbers below 256. -/
theorem sum_tableEntries {T : Byte → Byte} (hT : T.Injective) : (tableEntries T).sum = 32640 :=
  (tableEntries_perm_range hT).sum_eq.trans (by decide +kernel)

/-- Their XOR is that of the numbers below 256. -/
theorem xor_tableEntries {T : Byte → Byte} (hT : T.Injective) : (tableEntries T).foldl (· ^^^ ·) 0 = 0 :=
  have : RightCommutative (fun m n : Nat => m ^^^ n) := ⟨fun a b c => by ac_rfl⟩
  ((tableEntries_perm_range hT).foldl_eq 0).trans (by decide +kernel)

/-- The sum of the entries, each times a weight of its index. -/
def weightedSum (f : Nat → Nat) (T : Byte → Byte) : Nat :=
  ((List.range 256).map fun i => f i * (T (BitVec.ofNat 8 i)).toNat).sum

/-- Index times entry summed over a table is index times entry summed over its inverse, where the two change places. -/
theorem weightedSum_id_leftInverse {T U : Byte → Byte} (h : Function.LeftInverse U T) :
    weightedSum (fun i => i) U = weightedSum (fun i => i) T := by
  have hswap : (tableEntries T).map (fun n => n * (U (BitVec.ofNat 8 n)).toNat) =
      (List.range 256).map fun i => i * (T (BitVec.ofNat 8 i)).toNat := by
    rw [tableEntries, List.map_map]
    refine List.map_congr_left fun i hi => ?_
    rw [List.mem_range] at hi
    simp [h _, Nat.mod_eq_of_lt hi, Nat.mul_comm]
  calc weightedSum (fun i => i) U = ((tableEntries T).map fun n => n * (U (BitVec.ofNat 8 n)).toNat).sum :=
        ((tableEntries_perm_range h.injective).symm.map _).sum_eq
    _ = weightedSum (fun i => i) T := congrArg List.sum hswap

/-- The sums of T20 that no law of permutations gives. -/
theorem weightedSum_values : weightedSum (fun i => i) sbox = 4100348 ∧
    weightedSum (fun i => i * i) sbox % 65521 = 55883 ∧ weightedSum (fun i => i * i) invSbox % 65521 = 17794 := by
  decide +kernel

/-- Settles O45: the sum and the XOR of the entries, and the first weighted sum of the inverse table, follow from the tables being
inverse permutations; what depends on the entries themselves is read off them. -/
theorem tablesPassTheirChecks : Obligations.TablesPassTheirChecks := by
  unfold Obligations.TablesPassTheirChecks
  intro entries weighted
  rw [show entries = tableEntries from rfl, show weighted = weightedSum from rfl]
  have hsbox : sbox.Injective := invSbox_sbox.injective
  have hinvSbox : invSbox.Injective := sbox_invSbox.injective
  obtain ⟨hweighted, hsquares, hinvSquares⟩ := weightedSum_values
  have hconstruction (x y : Byte) (h : gfmul x y = 1) : sbox x = sboxAffine y := by
    rw [sbox_eq_sboxAffine_gfInverse, gfInverse_eq_of_gfmul_eq_one h]
  exact ⟨fun x => ⟨invSbox_sbox x, sbox_invSbox x⟩, ⟨by decide, hconstruction⟩, sbox_ne_self_and_ne_complement,
    sum_tableEntries hsbox, sum_tableEntries hinvSbox, xor_tableEntries hsbox, xor_tableEntries hinvSbox,
    hweighted, (weightedSum_id_leftInverse invSbox_sbox).trans hweighted, hsquares, hinvSquares, rfl, by decide⟩

end Sys2Proof.Machine
end

section
/-! BlockCodec: both mappings by the column-major index, their inversion, and their commands (rules R130 to R134). -/

namespace Sys2Proof.Machine

/-! ## The mappings by the column-major index (rules R130, R131) -/

/-- The cell of row `r` and column `c` comes from byte `4c + r` (rule R130). -/
theorem cell_toState_of_eq {r c : Fin 4} {i : Fin 16} (b : Block) (hi : i.val = 4 * c.val + r.val) :
    (toState b).cell r c = b[i] := by
  simp only [cell_toState, Fin.getElem_fin, hi]

/-- Byte `4c + r` comes from the cell of row `r` and column `c`, which are the remainder and the quotient of the byte's index by 4
(rule R131). -/
theorem fromState_getElem_of_eq {r c : Fin 4} {i : Fin 16} (m : Matrix) (hi : i.val = 4 * c.val + r.val) :
    (fromState m)[i] = m.cell r c := by
  have hrow : i.val % 4 = r.val := by omega
  have hcol : i.val / 4 = c.val := by omega
  simp only [Fin.getElem_fin, fromState_getElem, hrow, hcol]

/-! ## The commands (rules R133, R134) -/

/-- `TOST` on an unfaulted engine (rule R133). -/
theorem exec_tost {s : State} (h0 : s.err = 0) :
    exec .tost s = .next (State.complete { s with st := toState s.blk } 0) :=
  command_ok (i := .tost) h0

/-- `FRST` on an unfaulted engine (rule R134). -/
theorem exec_frst {s : State} (h0 : s.err = 0) :
    exec .frst s = .next (State.complete { s with blk := fromState s.st } 0) :=
  command_ok (i := .frst) h0

/-- Settles O31: each command writes the image of its mapping, whose cells the column-major index gives. -/
theorem blockCodecMovesByColumns : Obligations.BlockCodecMovesByColumns := by
  unfold Obligations.BlockCodecMovesByColumns
  intro s h0
  exact ⟨⟨_, exec_tost h0, fun r c i hi => cell_toState_of_eq s.blk hi, rfl⟩,
    ⟨_, exec_frst h0, fun r c i hi => fromState_getElem_of_eq s.st hi, rfl⟩⟩

/-! ## Inversion (rule R132) -/

/-- Byte `i` goes to row `i mod 4` and column `i div 4`, and comes back from there. -/
theorem fromState_toState (b : Block) : fromState (toState b) = b := by
  apply Vector.ext
  intro i hi
  rw [fromState_getElem]
  exact cell_toState_of_eq (i := ⟨i, hi⟩) b (Nat.div_add_mod i 4).symm

/-- The cell of row `r` and column `c` goes to byte `4c + r`, and comes back from there. -/
theorem toState_fromState (m : Matrix) : toState (fromState m) = m := by
  refine Matrix.ext_cell fun r c => ?_
  rw [cell_toState]
  exact fromState_getElem_of_eq (i := ⟨4 * c.val + r.val, by omega⟩) m rfl

/-- Settles O32: by both compositions. -/
theorem blockCodecMappingsAreInverse : Obligations.BlockCodecMappingsAreInverse := by
  unfold Obligations.BlockCodecMappingsAreInverse
  exact ⟨fromState_toState, toState_fromState⟩

end Sys2Proof.Machine
end

section
/-! Key coercion, the effective key of a stored key, and `KEXP` (rules R140, R142, R150). -/

namespace Sys2Proof.Machine

/-! ## Coercion to an effective key (rules R140, R142) -/

@[simp] theorem standardLength_iff (n : Nat) : standardLength n = true ↔ n = 16 ∨ n = 24 ∨ n = 32 := by
  simp [standardLength, or_assoc]

/-- A key of a standard length is used as it is. -/
theorem effectiveKey_of_standard {key : List Byte} (h : key.length = 16 ∨ key.length = 24 ∨ key.length = 32) :
    effectiveKey key = key := by
  rw [effectiveKey, if_pos ((standardLength_iff _).mpr h)]

/-- A key of any other length is cut to 16 bytes, and filled with zeros when it is shorter. -/
theorem effectiveKey_of_not_standard {key : List Byte}
    (h : ¬ (key.length = 16 ∨ key.length = 24 ∨ key.length = 32)) :
    effectiveKey key = key.take 16 ++ List.replicate (16 - min key.length 16) 0 := by
  rw [effectiveKey, if_neg (mt (standardLength_iff _).mp h)]

/-- The first bytes of a list with zeros after them, read byte by byte. -/
theorem getD_take_append_zeros (key : List Byte) (n k j : Nat) :
    (key.take n ++ List.replicate k 0).getD j 0 = if j < min key.length n then key.getD j 0 else 0 := by
  have hlen : (key.take n).length = min key.length n := by rw [List.length_take, Nat.min_comm]
  split
  · next hj =>
    rw [List.getD_append _ _ _ _ (by omega), List.getD_eq_getElem?_getD, List.getElem?_take_of_lt (by omega),
      List.getD_eq_getElem?_getD]
  · next hj =>
    rw [List.getD_append_right _ _ _ _ (by omega), List.getD_eq_getElem?_getD,
      List.getElem?_getD_replicate_default_eq]

/-- Settles O25: each byte of the effective key is one of the stored ones, and the saturated count is a standard length when the
key's length is. -/
theorem storedKeyDeterminesTheEffectiveKey : Obligations.StoredKeyDeterminesTheEffectiveKey := by
  unfold Obligations.StoredKeyDeterminesTheEffectiveKey
  exact fun _ _ h => storedEffectiveKey_of_prefix h

/-- Settles O24: by the two cases of the coercion; coercing again changes nothing, so the expansion is the same. -/
theorem otherKeyLengthsAreCoerced : Obligations.OtherKeyLengthsAreCoerced := by
  unfold Obligations.OtherKeyLengthsAreCoerced
  refine fun key => ⟨effectiveKey_of_standard, fun h => ⟨?length, fun j _ => ?bytes, expand_effectiveKey key⟩⟩
  case length =>
    rw [effectiveKey_of_not_standard h, List.length_append, List.length_take, List.length_replicate]; omega
  case bytes => rw [effectiveKey_of_not_standard h, getD_take_append_zeros]

/-! ## `KEXP` (rule R150) -/

/-- The cells past the last stored word keep what they held. -/
theorem storeWords_getElem_of_le (rk : Vector Word 60) {w : List Word} {i : Fin 60} (h : w.length ≤ i.val) :
    (storeWords rk w)[i] = rk[i] := by
  simp [storeWords, h]

/-- Settles O27: the expansion has `4 * (NR + 1)` words, and its sizes are legal, so NR and NK hold them. -/
theorem kexpStoresTheExpansion : Obligations.KexpStoresTheExpansion := by
  unfold Obligations.KexpStoresTheExpansion
  intro s h0 ks
  have hsizes : legalSizes ks.nk ks.nr := expand_legalSizes _
  have hwords : ks.words.length = 4 * (ks.nr + 1) := expand_words_length _
  obtain ⟨hnk, hnr⟩ := hsizes.toNat_ofNat
  refine ⟨_, exec_kexp h0, hnr, hnk, hsizes, fun i => ?words, ?frame⟩
  case words =>
    rw [State.complete_rk, State.storeKeys_rk, ← hwords]
    split
    · next hlt => exact storeWords_getElem_of_lt s.rk hlt
    · next hge => exact storeWords_getElem_of_le s.rk (Nat.le_of_not_lt hge)
  case frame => rw [State.storeKeys, State.complete]

end Sys2Proof.Machine
end

section
/-! The round steps: the coefficient matrices, inversion and commutation of the steps, and what each step's command writes
(rules R160 to R177). -/

namespace Sys2Proof.Machine

/-! ## Products of coefficient matrices (rules R164 to R166) -/

/-- Multiplying the columns by a product of matrices is multiplying by its right factor, then by its left one. -/
theorem mulColumns_assoc (k l m : Matrix) : mulColumns (mulColumns k l) m = mulColumns k (mulColumns l m) := by
  refine Matrix.ext_cell fun r c => ?_
  simp only [cell_mulColumns, gfmul_xor_left, gfmul_xor_right, gfmul_assoc]
  ac_rfl

/-- The matrix with 1 on the diagonal and 0 elsewhere leaves every column as it is. -/
theorem mulColumns_of_identity {k : Matrix} (hk : ∀ r c : Fin 4, k.cell r c = if r = c then 1 else 0) (m : Matrix) :
    mulColumns k m = m := by
  refine Matrix.ext_cell fun r c => ?_
  rw [cell_mulColumns]
  fin_cases r <;> simp [hk]

/-- The product of IM and M, cell by cell. -/
theorem cell_invMixMatrix_mul_mixMatrix :
    ∀ r c : Fin 4, (mulColumns invMixMatrix mixMatrix).cell r c = if r = c then 1 else 0 := by decide

/-- The product of M and IM, cell by cell. -/
theorem cell_mixMatrix_mul_invMixMatrix :
    ∀ r c : Fin 4, (mulColumns mixMatrix invMixMatrix).cell r c = if r = c then 1 else 0 := by decide

theorem invMixColumns_mixColumns (m : Matrix) : invMixColumns (mixColumns m) = m :=
  (mulColumns_assoc invMixMatrix mixMatrix m).symm.trans (mulColumns_of_identity cell_invMixMatrix_mul_mixMatrix m)

theorem mixColumns_invMixColumns (m : Matrix) : mixColumns (invMixColumns m) = m :=
  (mulColumns_assoc mixMatrix invMixMatrix m).symm.trans (mulColumns_of_identity cell_mixMatrix_mul_invMixMatrix m)

/-- Settles O37: the steps undo each other because the matrix products are the identity and multiplying columns is associative. -/
theorem mixColumnsAndInverseUndoEachOther : Obligations.MixColumnsAndInverseUndoEachOther := by
  unfold Obligations.MixColumnsAndInverseUndoEachOther
  exact ⟨cell_invMixMatrix_mul_mixMatrix, cell_mixMatrix_mul_invMixMatrix, invMixColumns_mixColumns,
    mixColumns_invMixColumns⟩

/-! ## SubBytes and ShiftRows (rule R167) -/

theorem invSubBytes_subBytes (m : Matrix) : invSubBytes (subBytes m) = m :=
  Matrix.ext_cell fun r c => by rw [cell_invSubBytes, cell_subBytes, invSbox_sbox]

theorem subBytes_invSubBytes (m : Matrix) : subBytes (invSubBytes m) = m :=
  Matrix.ext_cell fun r c => by rw [cell_subBytes, cell_invSubBytes, sbox_invSbox]

theorem invShiftRows_shiftRows (m : Matrix) : invShiftRows (shiftRows m) = m :=
  Matrix.ext_cell fun r c => by rw [cell_invShiftRows, cell_shiftRows, sub_add_cancel]

theorem shiftRows_invShiftRows (m : Matrix) : shiftRows (invShiftRows m) = m :=
  Matrix.ext_cell fun r c => by rw [cell_shiftRows, cell_invShiftRows, add_sub_cancel_right]

theorem shiftRows_subBytes (m : Matrix) : shiftRows (subBytes m) = subBytes (shiftRows m) :=
  Matrix.ext_cell fun r c => by rw [cell_shiftRows, cell_subBytes, cell_subBytes, cell_shiftRows]

theorem invShiftRows_invSubBytes (m : Matrix) : invShiftRows (invSubBytes m) = invSubBytes (invShiftRows m) :=
  Matrix.ext_cell fun r c => by rw [cell_invShiftRows, cell_invSubBytes, cell_invSubBytes, cell_invShiftRows]

/-- Settles O38: the tables invert each other, the column moves `c + r` and `c - r` do, and a step on values commutes
with a move. -/
theorem subBytesAndShiftRowsInvertAndCommute : Obligations.SubBytesAndShiftRowsInvertAndCommute := by
  unfold Obligations.SubBytesAndShiftRowsInvertAndCommute
  exact fun m => ⟨invSubBytes_subBytes m, subBytes_invSubBytes m, invShiftRows_shiftRows m, shiftRows_invShiftRows m,
    shiftRows_subBytes m, invShiftRows_invSubBytes m⟩

/-! ## The commands of the keyless steps on an unfaulted engine (rules R171 to R176) -/

theorem exec_subb {s : State} (h0 : s.err = 0) :
    exec .subb s = .next (State.complete { s with st := subBytes s.st } 0) := command_ok (i := .subb) h0

theorem exec_isubb {s : State} (h0 : s.err = 0) :
    exec .isubb s = .next (State.complete { s with st := invSubBytes s.st } 0) := command_ok (i := .isubb) h0

theorem exec_shr {s : State} (h0 : s.err = 0) :
    exec .shr s = .next (State.complete { s with st := shiftRows s.st } 0) := command_ok (i := .shr) h0

theorem exec_ishr {s : State} (h0 : s.err = 0) :
    exec .ishr s = .next (State.complete { s with st := invShiftRows s.st } 0) := command_ok (i := .ishr) h0

theorem exec_mixc {s : State} (h0 : s.err = 0) :
    exec .mixc s = .next (State.complete { s with st := mixColumns s.st } 0) := command_ok (i := .mixc) h0

theorem exec_imixc {s : State} (h0 : s.err = 0) :
    exec .imixc s = .next (State.complete { s with st := invMixColumns s.st } 0) := command_ok (i := .imixc) h0

/-- Settles O33: each command writes the image of its step, which looks every cell up. -/
theorem substitutionStepsActOnEveryCell : Obligations.SubstitutionStepsActOnEveryCell := by
  unfold Obligations.SubstitutionStepsActOnEveryCell
  exact fun s h0 => ⟨⟨_, exec_subb h0, cell_subBytes s.st, rfl⟩, ⟨_, exec_isubb h0, cell_invSubBytes s.st, rfl⟩⟩

/-! ## Rotation of the rows, with numbers modulo 4 (rules R162, R163) -/

/-- `c + r` in `Fin 4` is the sum modulo 4. -/
theorem cell_shiftRows_of_eq {r c k : Fin 4} (m : Matrix) (hk : k.val = (c.val + r.val) % 4) :
    (shiftRows m).cell r c = m.cell r k := by
  have hcol : c + r = k := Fin.ext hk.symm
  rw [cell_shiftRows, hcol]

/-- `c - r` in `Fin 4` is the difference modulo 4, with 4 added so that it is not negative. -/
theorem cell_invShiftRows_of_eq {r c k : Fin 4} (m : Matrix) (hk : k.val = (c.val + 4 - r.val) % 4) :
    (invShiftRows m).cell r c = m.cell r k := by
  have hcol : c - r = k := by rw [Fin.ext_iff, Fin.val_sub]; omega
  rw [cell_invShiftRows, hcol]

/-- Settles O34: the cell read is in the column that the number modulo 4 names. -/
theorem shiftStepsRotateTheRows : Obligations.ShiftStepsRotateTheRows := by
  unfold Obligations.ShiftStepsRotateTheRows
  exact fun s h0 => ⟨⟨_, exec_shr h0, fun _ _ _ hk => cell_shiftRows_of_eq s.st hk, rfl⟩,
    ⟨_, exec_ishr h0, fun _ _ _ hk => cell_invShiftRows_of_eq s.st hk, rfl⟩⟩

/-! ## The four products of a column (rules R164, R165) -/

/-- Row `r` of a rotated matrix takes the entries of the first row from place `-r` on. -/
theorem cell_mulColumns_rotatedRows (first : Vector Byte 4) (m : Matrix) (r c : Fin 4) :
    (mulColumns (rotatedRows first) m).cell r c =
      gfmul first[0 - r] (m.cell 0 c) ^^^ gfmul first[1 - r] (m.cell 1 c) ^^^ gfmul first[2 - r] (m.cell 2 c) ^^^
        gfmul first[3 - r] (m.cell 3 c) := by
  simp only [cell_mulColumns, cell_rotatedRows]

/-- The rows of M are the rotations of (2, 3, 1, 1), and a product with 1 is the cell itself. -/
theorem cell_mixColumns (m : Matrix) (c : Fin 4) :
    (mixColumns m).cell 0 c = gfmul 2 (m.cell 0 c) ^^^ gfmul 3 (m.cell 1 c) ^^^ m.cell 2 c ^^^ m.cell 3 c ∧
    (mixColumns m).cell 1 c = m.cell 0 c ^^^ gfmul 2 (m.cell 1 c) ^^^ gfmul 3 (m.cell 2 c) ^^^ m.cell 3 c ∧
    (mixColumns m).cell 2 c = m.cell 0 c ^^^ m.cell 1 c ^^^ gfmul 2 (m.cell 2 c) ^^^ gfmul 3 (m.cell 3 c) ∧
    (mixColumns m).cell 3 c = gfmul 3 (m.cell 0 c) ^^^ m.cell 1 c ^^^ m.cell 2 c ^^^ gfmul 2 (m.cell 3 c) := by
  -- without `zero_sub` the place `0 - r` stays a difference of numerals, which simp evaluates
  simp [mixColumns, mixMatrix, cell_mulColumns_rotatedRows, -zero_sub]

/-- The rows of IM are the rotations of (14, 11, 13, 9). -/
theorem cell_invMixColumns (m : Matrix) (c : Fin 4) :
    (invMixColumns m).cell 0 c =
      gfmul 14 (m.cell 0 c) ^^^ gfmul 11 (m.cell 1 c) ^^^ gfmul 13 (m.cell 2 c) ^^^ gfmul 9 (m.cell 3 c) ∧
    (invMixColumns m).cell 1 c =
      gfmul 9 (m.cell 0 c) ^^^ gfmul 14 (m.cell 1 c) ^^^ gfmul 11 (m.cell 2 c) ^^^ gfmul 13 (m.cell 3 c) ∧
    (invMixColumns m).cell 2 c =
      gfmul 13 (m.cell 0 c) ^^^ gfmul 9 (m.cell 1 c) ^^^ gfmul 14 (m.cell 2 c) ^^^ gfmul 11 (m.cell 3 c) ∧
    (invMixColumns m).cell 3 c =
      gfmul 11 (m.cell 0 c) ^^^ gfmul 13 (m.cell 1 c) ^^^ gfmul 9 (m.cell 2 c) ^^^ gfmul 14 (m.cell 3 c) := by
  have hrow (r : Fin 4) := cell_mulColumns_rotatedRows #v[14, 11, 13, 9] m r c
  exact ⟨hrow 0, hrow 1, hrow 2, hrow 3⟩

/-- Settles O35: each command writes the image of its step, whose cells are the four products. -/
theorem mixStepsMultiplyTheColumns : Obligations.MixStepsMultiplyTheColumns := by
  unfold Obligations.MixStepsMultiplyTheColumns
  exact fun s h0 => ⟨⟨_, exec_mixc h0, cell_mixColumns s.st, rfl⟩, ⟨_, exec_imixc h0, cell_invMixColumns s.st, rfl⟩⟩

/-! ## Adding a round key (rules R170, R177) -/

/-- Round key `k` gives cell `(r, c)` byte `r` of the store's word `4k + c`, said with numbers. -/
theorem cell_arkWith_toNat (rk : Vector Word 60) {k : Nat} {r c : Fin 4} {i : Fin 60} (m : Matrix)
    (hi : i.val = 4 * k + c.val) :
    ((arkWith rk k m).cell r c).toNat = (m.cell r c).toNat ^^^ (rk[i].toNat / 2 ^ (24 - 8 * r.val) % 256) := by
  have hword : (roundKey rk k)[c] = rk[i] := by
    simp only [roundKey_getElem rk k c (hi ▸ i.isLt), Fin.getElem_fin, hi]
  rw [arkWith, cell_addRoundKey, hword, BitVec.toNat_xor, byteOf_toNat]

/-- `ARK` with valid round keys and a round of the current schedule (rule R177). -/
theorem exec_ark {s : State} {a : Byte} (h0 : s.err = 0) (hkey : s.rkv = true) (hnr : a.toNat ≤ s.nr.toNat)
    (h14 : a.toNat ≤ 14) :
    exec (.ark a) s = .next (State.complete { s with st := arkWith s.rk a.toNat s.st } 0) := by
  rw [exec, execArk, checkIndex_of_lt (Nat.lt_succ_of_le h14), requireKey_of_valid hkey,
    checkLimit_of_lt (Nat.lt_succ_of_le hnr)]
  exact command_ok h0

/-- Settles O36: the round passes all three checks, and the write is `arkWith`. -/
theorem arkAddsTheRoundKey : Obligations.ArkAddsTheRoundKey := by
  unfold Obligations.ArkAddsTheRoundKey
  exact fun s a h0 hkey hnr h14 => ⟨_, exec_ark h0 hkey hnr h14, fun _ _ _ hi => cell_arkWith_toNat s.rk s.st hi, rfl⟩

end Sys2Proof.Machine
end

section
/-! The round pipelines: inversion, the commands `ENC` and `DEC`, and their equality with sequences of step commands
(rules R180 to R185). -/

namespace Sys2Proof.Machine

/-! ## `ENC` and `DEC` (rules R183, R184) -/

/-- `DEC` with valid round keys (rule R184). -/
theorem exec_dec {s : State} (h0 : s.err = 0) (hkey : s.rkv = true) :
    exec .dec s = .next (State.complete { s with
      st := invCipher s.rk s.nr.toNat (toState s.blk),
      blk := fromState (invCipher s.rk s.nr.toNat (toState s.blk)) } 0) := by
  rw [exec, execDec, requireKey_of_valid hkey]
  exact command_ok h0

/-- Settles O39: with valid round keys both rules pass their one check. -/
theorem encAndDecWorkInPlace : Obligations.EncAndDecWorkInPlace := by
  unfold Obligations.EncAndDecWorkInPlace
  exact fun s h0 hkey => ⟨exec_enc h0 hkey, exec_dec h0 hkey⟩

/-! ## Inversion (rule R182)

A full round of one pipeline does not undo a full round of the other.  It undoes the end of one full round and the substitution
and shift of the round after it, so what passes down the rounds is the state after a substitution and a shift. -/

/-- Adding a round key twice adds nothing. -/
theorem arkWith_arkWith (rk : Vector Word 60) (k : Nat) (m : Matrix) : arkWith rk k (arkWith rk k m) = m :=
  Matrix.ext_cell fun r c => by
    rw [arkWith, arkWith, cell_addRoundKey, cell_addRoundKey, BitVec.xor_assoc, BitVec.xor_self, BitVec.xor_zero]

/-- An inverse round carries the next round's substitution and shift back over the forward round with its key. -/
theorem inverseRound_of_forwardRound (rk : Vector Word 60) (m : Matrix) (k : Nat) :
    inverseRound rk (shiftRows (subBytes (forwardRound rk m k))) k = shiftRows (subBytes m) := by
  rw [inverseRound, invShiftRows_shiftRows, invSubBytes_subBytes, forwardRound, arkWith_arkWith, invMixColumns_mixColumns]

/-- A forward round carries the inverse shift and substitution over the inverse round with its key. -/
theorem forwardRound_of_inverseRound (rk : Vector Word 60) (m : Matrix) (k : Nat) :
    forwardRound rk (invSubBytes (invShiftRows (inverseRound rk m k))) k = invSubBytes (invShiftRows m) := by
  rw [forwardRound, subBytes_invSubBytes, shiftRows_invShiftRows, inverseRound, mixColumns_invMixColumns, arkWith_arkWith]

/-- If each `g` undoes its `f` under `e`, the `g` in the reverse order undo the `f` under `e`. -/
theorem foldl_reverse_foldl {α β γ : Type} {f : α → γ → α} {g : β → γ → β} {e : α → β}
    (h : ∀ m k, g (e (f m k)) k = e m) (ks : List γ) (m : α) : ks.reverse.foldl g (e (ks.foldl f m)) = e m := by
  induction ks generalizing m with
  | nil => rfl
  | cons k ks ih => rw [List.foldl_cons, List.reverse_cons, List.foldl_concat, ih, h]

/-- The inverse pipeline undoes the forward one, whatever the number of rounds. -/
theorem invCipher_cipher (rk : Vector Word 60) (nr : Nat) (m : Matrix) : invCipher rk nr (cipher rk nr m) = m := by
  have hrounds := foldl_reverse_foldl (e := fun m => shiftRows (subBytes m)) (inverseRound_of_forwardRound rk)
    (middleRounds nr) (arkWith rk 0 m)
  rw [invCipher, cipher, arkWith_arkWith, hrounds, invShiftRows_shiftRows, invSubBytes_subBytes, arkWith_arkWith]

/-- The forward pipeline undoes the inverse one, whatever the number of rounds. -/
theorem cipher_invCipher (rk : Vector Word 60) (nr : Nat) (m : Matrix) : cipher rk nr (invCipher rk nr m) = m := by
  have hrounds := foldl_reverse_foldl (e := fun m => invSubBytes (invShiftRows m)) (forwardRound_of_inverseRound rk)
    (middleRounds nr).reverse (arkWith rk nr m)
  rw [List.reverse_reverse] at hrounds
  rw [cipher, invCipher, arkWith_arkWith, hrounds, subBytes_invSubBytes, shiftRows_invShiftRows, arkWith_arkWith]

/-- Settles O40: for every number of rounds, so for 10, 12 and 14. -/
theorem pipelinesAreInverse : Obligations.PipelinesAreInverse := by
  unfold Obligations.PipelinesAreInverse
  exact fun rk nr m _ => ⟨invCipher_cipher rk nr m, cipher_invCipher rk nr m⟩

/-! ## Sequences of step commands that respond `(1, 0)` (rules R63, R79) -/

/-- The commands, issued one after the other from `s`, all respond `(1, 0)` and leave `t`.  Both ends show that response on the
port, so that such sequences compose, the empty one included. -/
def RunsTo (is : List Instr) (s t : State) : Prop :=
  ∃ rs, runCommands (s.complete 0) is = some (t.complete 0, rs) ∧ ∀ r ∈ rs, r = ⟨true, 0⟩

theorem RunsTo.nil (s : State) : RunsTo [] s s := ⟨[], rfl, nofun⟩

/-- A command that executes, then the rest. -/
theorem RunsTo.cons {i : Instr} {is : List Instr} {s t u : State}
    (h : exec i { s with rsp := none } = .next (t.complete 0)) (hs : RunsTo is t u) : RunsTo (i :: is) s u := by
  obtain ⟨rs, hrun, hrs⟩ := hs
  have hfirst : transact (s.complete 0) (encode i) = some (t.complete 0, ⟨true, 0⟩) :=
    transact_command (decode_encode i) h rfl
  exact ⟨_, runCommands_cons hfirst hrun, List.forall_mem_cons.mpr ⟨rfl, hrs⟩⟩

theorem RunsTo.append {is js : List Instr} {s t u : State} (hs : RunsTo is s t) (ht : RunsTo js t u) :
    RunsTo (is ++ js) s u := by
  obtain ⟨rs, hrun, hrs⟩ := hs
  obtain ⟨rs', hrun', hrs'⟩ := ht
  exact ⟨_, runCommands_append hrun hrun', List.forall_mem_append.mpr ⟨hrs, hrs'⟩⟩

/-- A non-empty sequence does not look at the response present before it. -/
theorem RunsTo.exists_runCommands {i : Instr} {is : List Instr} {s t : State} (h : RunsTo (i :: is) s t) :
    ∃ rs, runCommands s (i :: is) = some (t.complete 0, rs) ∧ ∀ r ∈ rs, r = ⟨true, 0⟩ := h

/-- A command that takes ST from any `m` to `f m`, then the rest. -/
theorem RunsTo.cons_st {i : Instr} {is : List Instr} {s u : State} {f : Matrix → Matrix} {m : Matrix}
    (h : ∀ m, exec i { s with st := m, rsp := none } = .next (State.complete { s with st := f m } 0))
    (hs : RunsTo is { s with st := f m } u) : RunsTo (i :: is) { s with st := m } u := .cons (h m) hs

/-- One sequence for each round, which takes ST from `m` to `f m k`: all of them take ST through the rounds in order. -/
theorem RunsTo.flatMap {cmds : Nat → List Instr} {f : Matrix → Nat → Matrix} {s : State} {ks : List Nat} (m : Matrix)
    (h : ∀ k ∈ ks, ∀ m, RunsTo (cmds k) { s with st := m } { s with st := f m k }) :
    RunsTo (ks.flatMap cmds) { s with st := m } { s with st := ks.foldl f m } := by
  induction ks generalizing m with
  | nil => exact .nil _
  | cons k ks ih =>
    obtain ⟨hk, hks⟩ := List.forall_mem_cons.mp h
    exact (hk m).append (ih (f m k) hks)

/-! ## The sequences equal to `ENC` and `DEC` (rule R185) -/

/-- The middle rounds are below the last. -/
theorem le_of_mem_middleRounds {nr k : Nat} (h : k ∈ middleRounds nr) : k ≤ nr := by
  rw [middleRounds, List.mem_range'_1] at h; omega

section Sequences

variable {s : State} (h0 : s.err = 0) (hkey : s.rkv = true) (h14 : s.nr.toNat ≤ 14)
include h0 hkey h14

/-- `ARK k` on any ST, with valid round keys and a round of the current schedule (rule R177). -/
theorem exec_ark_byteOfNat {k : Nat} (hk : k ≤ s.nr.toNat) (m : Matrix) :
    exec (.ark (byteOfNat k)) { s with st := m, rsp := none } =
      .next (State.complete { s with st := arkWith s.rk k m } 0) := by
  have hnat : (byteOfNat k).toNat = k := byteOfNat_toNat (by omega)
  have h := exec_ark (s := { s with st := m, rsp := none }) (a := byteOfNat k) h0 hkey (hnat.trans_le hk)
    (hnat.trans_le (hk.trans h14))
  rw [hnat] at h
  exact h

/-- `TOST` and `ARK k` bring the block into ST and add the round key. -/
theorem runsTo_load {k : Nat} (hk : k ≤ s.nr.toNat) :
    RunsTo [.tost, .ark (byteOfNat k)] s { s with st := arkWith s.rk k (toState s.blk) } :=
  .cons (exec_tost h0) <| .cons_st (exec_ark_byteOfNat h0 hkey h14 hk) <| .nil _

/-- The four commands of a full forward round. -/
theorem runsTo_forwardRound {k : Nat} (hk : k ≤ s.nr.toNat) (m : Matrix) :
    RunsTo (forwardRoundCommands k) { s with st := m } { s with st := forwardRound s.rk m k } :=
  .cons_st (fun _ => exec_subb h0) <| .cons_st (fun _ => exec_shr h0) <| .cons_st (fun _ => exec_mixc h0) <|
    .cons_st (exec_ark_byteOfNat h0 hkey h14 hk) <| .nil _

/-- The four commands of a full inverse round. -/
theorem runsTo_inverseRound {k : Nat} (hk : k ≤ s.nr.toNat) (m : Matrix) :
    RunsTo (inverseRoundCommands k) { s with st := m } { s with st := inverseRound s.rk m k } :=
  .cons_st (fun _ => exec_ishr h0) <| .cons_st (fun _ => exec_isubb h0) <| .cons_st (exec_ark_byteOfNat h0 hkey h14 hk) <|
    .cons_st (fun _ => exec_imixc h0) <| .nil _

/-- The forward sequence leaves the state `ENC` leaves. -/
theorem runsTo_encCommands : RunsTo (encCommands s.nr.toNat) s { s with
    st := cipher s.rk s.nr.toNat (toState s.blk), blk := fromState (cipher s.rk s.nr.toNat (toState s.blk)) } := by
  have hload := runsTo_load h0 hkey h14 (Nat.zero_le _)
  have hrounds := RunsTo.flatMap (arkWith s.rk 0 (toState s.blk)) fun k (hk : k ∈ middleRounds s.nr.toNat) m =>
    runsTo_forwardRound h0 hkey h14 (le_of_mem_middleRounds hk) m
  exact (hload.append hrounds).append <|
    .cons_st (fun _ => exec_subb h0) <| .cons_st (fun _ => exec_shr h0) <| .cons_st (exec_ark_byteOfNat h0 hkey h14 le_rfl) <|
      .cons (exec_frst h0) <| .nil _

/-- The inverse sequence leaves the state `DEC` leaves. -/
theorem runsTo_decCommands : RunsTo (decCommands s.nr.toNat) s { s with
    st := invCipher s.rk s.nr.toNat (toState s.blk), blk := fromState (invCipher s.rk s.nr.toNat (toState s.blk)) } := by
  have hload := runsTo_load h0 hkey h14 le_rfl
  have hrounds := RunsTo.flatMap (arkWith s.rk s.nr.toNat (toState s.blk))
    fun k (hk : k ∈ (middleRounds s.nr.toNat).reverse) m =>
      runsTo_inverseRound h0 hkey h14 (le_of_mem_middleRounds (List.mem_reverse.mp hk)) m
  exact (hload.append hrounds).append <|
    .cons_st (fun _ => exec_ishr h0) <| .cons_st (fun _ => exec_isubb h0) <|
      .cons_st (exec_ark_byteOfNat h0 hkey h14 (Nat.zero_le _)) <| .cons (exec_frst h0) <| .nil _

end Sequences

/-- Settles O41: each command of a sequence does its step of the pipeline, the middle rounds in their order. -/
theorem encAndDecEqualTheirStepCommands : Obligations.EncAndDecEqualTheirStepCommands := by
  unfold Obligations.EncAndDecEqualTheirStepCommands
  intro s h0 hkey h14
  obtain ⟨rs, hrun, hrs⟩ := (runsTo_encCommands h0 hkey h14).exists_runCommands
  obtain ⟨rs', hrun', hrs'⟩ := (runsTo_decCommands h0 hkey h14).exists_runCommands
  exact ⟨⟨_, rs, hrun, hrs, exec_enc h0 hkey⟩, ⟨_, rs', hrun', hrs', exec_dec h0 hkey⟩⟩

end Sys2Proof.Machine
end

section
/-! Reset, fault entry and the faulted state (rules R236 to R239, R250). -/

namespace Sys2Proof.Machine

/-! ## Reset and fault entry (rules R236, R250) -/

/-- Settles O8: a step that sees `rst` takes no command, and the rule of `SRST` asks for nothing. -/
theorem bothResetsReachTheResetState : Obligations.BothResetsReachTheResetState := by
  unfold Obligations.BothResetsReachTheResetState
  exact ⟨fun _ _ _ h => step_of_rst h, fun _ => rfl⟩

/-- Fault entry with the code as a number (rules R231, R236). -/
theorem State.exists_code_faultEntry (s : State) (e : FaultCode) (w : Word) : ∃ code : Nat, 1 ≤ code ∧ code ≤ 6 ∧
    s.faultEntry e w = { s with err := BitVec.ofNat 8 code, fcmd := w, rsp := some ⟨false, BitVec.ofNat 32 code⟩ } := by
  refine ⟨e.code.toNat, e.code_range.1, e.code_range.2, ?_⟩
  cases e <;> rfl

/-- A command that ends with `rsp_ok = 0` on an unfaulted engine faulted, whatever the command. -/
theorem exec_eq_faultEntry_of_rsp {i : Instr} {s t : State} {d : Word} (h0 : s.err = 0) (h : exec i s = .next t)
    (hrsp : t.rsp = some ⟨false, d⟩) : ∃ e, t = s.faultEntry e (encode i) := by
  obtain ⟨_, rfl⟩ | ⟨a, ha, _, rfl⟩ | ⟨herr, _⟩ | ⟨_, s', v, _, rfl⟩ | ⟨_, e, ht⟩ := exec_cases h
  · simp at hrsp
  · simp at hrsp
  · exact absurd h0 herr
  · simp at hrsp
  · exact ⟨e, ht⟩

/-- Settles O12: the word is a command's, whose fault leaves that word in `FCMD`, or no command's at all. -/
theorem faultEntryChangesNothingElse : Obligations.FaultEntryChangesNothingElse := by
  unfold Obligations.FaultEntryChangesNothingElse
  intro s t w d h0 h hrsp
  cases hd : decode w with
  | ok i =>
    rw [step_present_ok s hd] at h
    obtain ⟨e, rfl⟩ := exec_eq_faultEntry_of_rsp (by exact h0) h hrsp
    rw [encode_of_decode hd]
    exact s.exists_code_faultEntry e w
  | error e =>
    rw [step_present_error_unfaulted h0 hd] at h
    cases h
    exact s.exists_code_faultEntry _ w

/-! ## The faulted state (rules R237 to R239) -/

/-- A faulted engine refuses every command but `SRST` and a `CSRR` of an existing CSR. -/
theorem exec_faulted {i : Instr} {s : State} (h : s.err ≠ 0) (hsrst : i ≠ .srst)
    (hcsrr : ∀ a : Byte, a.toNat < 5 → i ≠ .csrr a) : exec i s = .next s.refuse := by
  obtain ⟨hi, _⟩ | ⟨a, ha, hi, _⟩ | ⟨r, e⟩ := exec_form i s
  · exact absurd hi hsrst
  · exact absurd hi (hcsrr a ha)
  · rw [e, command_faulted h]

/-- `imm16` is 0 when both its bytes are (rule R71). -/
theorem imm16Field_eq_zero_iff (w : Word) : imm16Field w = 0 ↔ bField w = 0 ∧ cField w = 0 := by
  have hpack := packImm_imm16Field_eq 0 w
  constructor
  · intro h
    rw [h] at hpack
    obtain ⟨_, _, hb, hc⟩ := (packFields_eq_zero 0 0 _ _).mp hpack.symm
    exact ⟨hb, hc⟩
  · rintro ⟨hb, hc⟩
    rw [hb, hc] at hpack
    exact (imm16Field_packImm 0 _).symm.trans (congrArg imm16Field hpack)

/-- The words of `CSRR` are those with opcode 0x02 and nothing in their low half (rules R71, R72). -/
theorem eq_encode_csrr_iff {w : Word} {a : Byte} :
    w = encode (.csrr a) ↔ opField w = 0x02 ∧ imm16Field w = 0 ∧ aField w = a := by
  rw [imm16Field_eq_zero_iff]
  constructor
  · rintro rfl
    exact ⟨opField_packFields .., ⟨bField_packFields .., cField_packFields ..⟩, aField_packFields ..⟩
  · rintro ⟨hop, ⟨hb, hc⟩, ha⟩
    rw [← packFields_fields w, hop, hb, hc, ha, encode]

/-- A faulted engine that takes any word but those of `SRST` and `CSRR 0` to `CSRR 4` refuses it. -/
theorem step_present_faulted {s : State} {w : Word} (h : s.err ≠ 0) (hsrst : w ≠ encode .srst)
    (hcsrr : ∀ a : Byte, a.toNat < 5 → w ≠ encode (.csrr a)) : step (s.present w) = .next s.refuse := by
  cases hd : decode w with
  | ok i =>
    obtain rfl := decode_eq_ok_iff.mp hd
    rw [step_present_ok s hd]
    exact exec_faulted h (fun e => hsrst (congrArg encode e)) fun a ha e => hcsrr a ha (congrArg encode e)
  | error e =>
    rw [step_present_error s hd]
    exact undecodable_faulted h

/-- Settles O13: the two commands that execute are told by their words, and all other words are refused. -/
theorem faultedEngineRefusesOtherWords : Obligations.FaultedEngineRefusesOtherWords := by
  unfold Obligations.FaultedEngineRefusesOtherWords
  refine fun s w herr => ⟨fun hw => ?srst, fun n hop himm hn => ?csrr, fun hsrst hcsrr => ?refused⟩
  case srst =>
    subst hw
    exact step_present_ok s (decode_encode .srst)
  case csrr =>
    have hlt : (aField w).toNat < 5 := hn ▸ n.isLt
    obtain rfl : (⟨(aField w).toNat, hlt⟩ : Fin 5) = n := Fin.ext hn
    rw [step_present_ok s (decode_eq_ok_iff.mpr (eq_encode_csrr_iff.mpr ⟨hop, himm, rfl⟩)), exec_csrr_of_lt _ hlt]
    rfl
  case refused =>
    refine step_present_faulted herr hsrst fun a ha hw => hcsrr ?_
    obtain ⟨hop, himm, rfl⟩ := eq_encode_csrr_iff.mp hw
    exact ⟨hop, himm, Nat.le_of_lt_succ ha⟩

/-- A faulted engine that takes a word other than that of `SRST` changes its response port only. -/
theorem step_present_faulted_frame {s t : State} {w : Word} (herr : s.err ≠ 0) (hsrst : w ≠ encode .srst)
    (h : step (s.present w) = .next t) : t = { s with rsp := t.rsp } := by
  cases hd : decode w with
  | ok i =>
    rw [step_present_ok s hd] at h
    obtain ⟨rfl, _⟩ | ⟨a, ha, _, rfl⟩ | ⟨_, rfl⟩ | ⟨h0, _⟩ | ⟨h0, _⟩ := exec_cases h
    · exact absurd (decode_eq_ok_iff.mp hd) hsrst
    · rfl
    · rfl
    · exact absurd h0 herr
    · exact absurd h0 herr
  | error e =>
    rw [step_present_error s hd, undecodable_faulted (by exact herr)] at h
    cases h
    rfl

/-- Settles O14: by what the step finds on its ports; the word of `SRST` resets, every other word leaves the stores. -/
theorem faultedStateIsLeftOnlyByReset : Obligations.FaultedStateIsLeftOnlyByReset := by
  unfold Obligations.FaultedStateIsLeftOnlyByReset
  intro s t herr h resets
  match hin : s.inputs with
  | [] =>
    rw [step_of_no_input hin] at h
    cases h
    refine ⟨fun ⟨p, rest, e, _⟩ => by simp [hin] at e, fun _ => rfl⟩
  | ⟨true, cmd⟩ :: rest =>
    rw [step_of_rst hin] at h
    cases h
    exact ⟨fun _ => rfl, fun hno => absurd ⟨_, rest, hin, .inl rfl⟩ hno⟩
  | ⟨false, none⟩ :: rest =>
    rw [step_of_idle_input hin] at h
    cases h
    refine ⟨fun ⟨p, rest, e, hp⟩ => ?_, fun _ => rfl⟩
    obtain ⟨rfl, _⟩ := List.cons.inj (hin.symm.trans e)
    simp at hp
  | ⟨false, some w⟩ :: rest =>
    rw [State.eq_present hin] at h
    by_cases hw : w = encode .srst
    · subst hw
      rw [step_present_ok _ (decode_encode .srst)] at h
      cases h
      exact ⟨fun _ => rfl, fun hno => absurd ⟨_, rest, hin, .inr rfl⟩ hno⟩
    · refine ⟨fun ⟨p, rest', e, hp⟩ => ?_, fun _ => ?_⟩
      · obtain ⟨rfl, _⟩ := List.cons.inj (hin.symm.trans e)
        exact absurd (by simpa using hp : w = 0x01000000) hw
      · have hframe := step_present_faulted_frame (s := { s with inputs := rest }) herr hw h
        rw [hframe]

end Sys2Proof.Machine
end

section
/-! The checks against state, which commands write which store, and the independence of the XOR datapath from the rest
(rules R231, R235, R244, R259). -/

namespace Sys2Proof.Machine

/-! ## Faults of the checks against state (rules R231, R235) -/

/-- A command of an unfaulted engine whose rule raises a fault takes it (rule R236). -/
theorem exec_fault {i : Instr} {s : State} {r : Rule} {e : FaultCode} (h0 : s.err = 0) (hrule : exec i s = command i s r)
    (hr : r = .error e) : exec i s = .next (s.faultEntry e (encode i)) := by
  rw [hrule, hr, command_error h0]

/-- A rule that asks for round keys when there are none raises `ERR_NOKEY`. -/
theorem requireKey_bind_noKey {s : State} {f : Unit → Rule} (hkey : s.rkv = false) :
    (requireKey s >>= f) = .error .noKey := rule_bind_of_error (requireKey_of_invalid hkey)

/-- An index within its fixed bound lets the check for round keys come next (rule R235 items 4 and 5). -/
theorem checkIndex_requireKey_noKey {n : Nat} {a : Byte} {s : State} {f : Fin n → Unit → Rule} (ha : a.toNat < n)
    (hkey : s.rkv = false) : (checkIndex n a >>= fun i => requireKey s >>= f i) = .error .noKey := by
  rw [checkIndex_of_lt ha, rule_ok_bind, requireKey_bind_noKey hkey]

/-- Settles O16: each command raises the fault of the first of its checks that fails. -/
theorem stateChecksFaultInOrder : Obligations.StateChecksFaultInOrder := by
  unfold Obligations.StateChecksFaultInOrder
  intro s h0
  refine ⟨fun hkey => ⟨?enc, ?dec, fun a ha => ?rkrd, fun a ha => ?rkrdFixed, fun a ha => ?ark, fun a ha => ?arkFixed⟩,
    fun hempty v => ?xstep, fun hfull v => ?xkpush⟩
  case enc | dec => exact exec_fault (e := .noKey) h0 rfl (requireKey_bind_noKey hkey)
  case rkrd | ark => exact exec_fault (e := .noKey) h0 rfl (checkIndex_requireKey_noKey (Nat.lt_succ_of_le ha) hkey)
  case rkrdFixed | arkFixed => exact exec_fault (e := .index) h0 rfl (rule_bind_of_error (checkIndex_of_ge ha))
  case xstep => exact exec_fault (e := .xNoKey) h0 rfl (dif_pos hempty)
  case xkpush => exact exec_fault (e := .xkFull) h0 rfl (dif_neg (by omega))

/-! ## Which commands write which store (rule R244) -/

/-- What the own rule of command `i` may change from `s` to `t`: the write columns of rule R244. -/
structure WritesItsStores (i : Instr) (s t : State) : Prop where
  blk : t.blk ≠ s.blk → (∃ a c, i = .bwr a c) ∨ i = .frst ∨ i = .enc ∨ i = .dec
  st : t.st ≠ s.st → (∃ a b c, i = .swr a b c) ∨ i = .tost ∨ i = .subb ∨ i = .isubb ∨ i = .shr ∨ i = .ishr ∨ i = .mixc ∨
    i = .imixc ∨ (∃ a, i = .ark a) ∨ i = .enc ∨ i = .dec
  key : t.keybuf ≠ s.keybuf ∨ t.klen ≠ s.klen → i = .kclr ∨ ∃ c, i = .kpush c
  schedule : t.rk ≠ s.rk ∨ t.nr ≠ s.nr ∨ t.nk ≠ s.nk → i = .kexp
  rkv : t.rkv ≠ s.rkv → i = .kexp ∧ t.rkv = true ∨ (i = .kclr ∨ ∃ c, i = .kpush c) ∧ t.rkv = false
  xkey : t.xkey ≠ s.xkey ∨ t.xklen ≠ s.xklen → i = .xkclr ∨ ∃ v, i = .xkpush v
  xpos : t.xpos ≠ s.xpos → i = .xkclr ∨ (∃ v, i = .xkpush v) ∨ i = .xrst ∨ ∃ v, i = .xstep v
  err : t.err = s.err
  fcmd : t.fcmd = s.fcmd
  inputs : t.inputs = s.inputs

section Writes

variable {i : Instr} (s : State)

theorem WritesItsStores.nothing : WritesItsStores i s s := by
  constructor <;> simp

theorem WritesItsStores.writeBlk (h : (∃ a c, i = .bwr a c) ∨ i = .frst) (blk : Block) :
    WritesItsStores i s { s with blk := blk } :=
  { WritesItsStores.nothing s with blk := fun _ => h.imp_right .inl }

theorem WritesItsStores.writeSt (h : (∃ a b c, i = .swr a b c) ∨ i = .tost ∨ i = .subb ∨ i = .isubb ∨ i = .shr ∨ i = .ishr ∨
    i = .mixc ∨ i = .imixc ∨ (∃ a, i = .ark a) ∨ i = .enc ∨ i = .dec) (st : Matrix) :
    WritesItsStores i s { s with st := st } :=
  { WritesItsStores.nothing s with st := fun _ => h }

theorem WritesItsStores.writeBoth (h : i = .enc ∨ i = .dec) (blk : Block) (st : Matrix) :
    WritesItsStores i s { s with blk := blk, st := st } :=
  { WritesItsStores.nothing s with blk := fun _ => by simp [h], st := fun _ => by simp [h] }

theorem WritesItsStores.writeKey (h : i = .kclr ∨ ∃ c, i = .kpush c) (keybuf : Vector Byte 32) (klen : BitVec 6) :
    WritesItsStores i s { s with keybuf := keybuf, klen := klen, rkv := false } :=
  { WritesItsStores.nothing s with key := fun _ => h, rkv := fun _ => .inr ⟨h, rfl⟩ }

theorem WritesItsStores.writeSchedule (h : i = .kexp) (rk : Vector Word 60) (nr nk : BitVec 4) :
    WritesItsStores i s { s with rk := rk, nr := nr, nk := nk, rkv := true } :=
  { WritesItsStores.nothing s with schedule := fun _ => h, rkv := fun _ => .inl ⟨h, rfl⟩ }

theorem WritesItsStores.writeXkey (h : i = .xkclr ∨ ∃ v, i = .xkpush v) (xkey : Vector Char16 256) (xklen : Fin 257)
    (xpos : Fin 256) : WritesItsStores i s { s with xkey := xkey, xklen := xklen, xpos := xpos } :=
  { WritesItsStores.nothing s with xkey := fun _ => h, xpos := fun _ => h.imp_right .inl }

theorem WritesItsStores.writeXpos (h : i = .xrst ∨ ∃ v, i = .xstep v) (xpos : Fin 256) :
    WritesItsStores i s { s with xpos := xpos } :=
  { WritesItsStores.nothing s with xpos := fun _ => .inr (.inr h) }

end Writes

/-- The end of command `i` from `s`: a fault, or its own writes and a response. -/
def FaultsOrWrites (i : Instr) (s t : State) : Prop :=
  (∃ e w, t = s.faultEntry e w) ∨ ∃ s' rsp, WritesItsStores i s s' ∧ t = { s' with rsp := rsp }

/-- A command writes its own stores when its own rule does. -/
theorem exec_writes_of_rule {i : Instr} {s t : State} {r : Rule} (h : exec i s = .next t) (hrule : exec i s = command i s r)
    (hr : Rule.Ends (WritesItsStores i s) r) : FaultsOrWrites i s t := by
  rw [hrule] at h
  obtain ⟨_, rfl⟩ | ⟨_, s', v, e, rfl⟩ | ⟨_, e, _, rfl⟩ := command_cases h
  · exact .inr ⟨s, _, .nothing s, rfl⟩
  · exact .inr ⟨s', _, hr s' v e, rfl⟩
  · exact .inl ⟨e, _, rfl⟩

/-- Every command but `SRST` writes its own stores only. -/
theorem exec_faultsOrWrites {i : Instr} {s t : State} (h : exec i s = .next t) (hi : i ≠ .srst) :
    FaultsOrWrites i s t := by
  cases i
  case srst => exact absurd rfl hi
  case csrr a =>
    by_cases ha : a.toNat < 5
    · rw [exec_csrr_of_lt s ha] at h
      cases h
      exact .inr ⟨s, _, .nothing s, rfl⟩
    · exact exec_writes_of_rule h (exec_csrr_of_ge s (Nat.not_lt.mp ha)) .error
  -- BLK and ST
  case bwr => exact exec_writes_of_rule h rfl (.bind fun _ => .ok (.writeBlk s (by simp) _))
  case frst => exact exec_writes_of_rule h rfl (.ok (.writeBlk s (by simp) _))
  case swr => exact exec_writes_of_rule h rfl (.bind fun _ => .bind fun _ => .ok (.writeSt s (by simp) _))
  case tost | subb | isubb | shr | ishr | mixc | imixc => exact exec_writes_of_rule h rfl (.ok (.writeSt s (by simp) _))
  case ark =>
    exact exec_writes_of_rule h rfl (.bind fun _ => .bind fun _ => .bind fun _ => .ok (.writeSt s (by simp) _))
  case enc | dec => exact exec_writes_of_rule h rfl (.bind fun _ => .ok (.writeBoth s (by simp) _ _))
  -- the key store and the schedule
  case kclr | kpush => exact exec_writes_of_rule h rfl (.ok (.writeKey s (by simp) _ _))
  case kexp => exact exec_writes_of_rule h rfl (.ok (.writeSchedule s rfl _ _ _))
  -- the XOR key store
  case xkclr => exact exec_writes_of_rule h rfl (.ok (.writeXkey s (by simp) _ _ _))
  case xkpush =>
    refine exec_writes_of_rule h rfl ?_
    split
    · exact .ok (.writeXkey s (by simp) _ _ _)
    · exact .error
  case xrst => exact exec_writes_of_rule h rfl (.ok (.writeXpos s (by simp) _))
  case xstep =>
    refine exec_writes_of_rule h rfl ?_
    split
    · exact .error
    · exact .ok (.writeXpos s (by simp) _)
  -- all others write no store, after no check, one, two or three
  case nop | gfmul | sbox | isbox => exact exec_writes_of_rule h rfl (.ok (.nothing s))
  case brd | rcon => exact exec_writes_of_rule h rfl (.bind fun _ => .ok (.nothing s))
  case srd => exact exec_writes_of_rule h rfl (.bind fun _ => .bind fun _ => .ok (.nothing s))
  case rkrd => exact exec_writes_of_rule h rfl (.bind fun _ => .bind fun _ => .bind fun _ => .ok (.nothing s))

/-- Settles O51: a fault writes `ERR` and `FCMD` only, and each command's own rule the stores of its row. -/
theorem onlyTheListedCommandsWriteEachStore : Obligations.OnlyTheListedCommandsWriteEachStore := by
  unfold Obligations.OnlyTheListedCommandsWriteEachStore
  intro i s t h hi
  obtain ⟨e, w, rfl⟩ | ⟨s', rsp, hw, rfl⟩ := exec_faultsOrWrites h hi
  · simp
  · have hfault (hne : s'.err ≠ s.err ∨ s'.fcmd ≠ s.fcmd) : ∃ d, rsp = some ⟨false, d⟩ := by
      simp [hw.err, hw.fcmd] at hne
    exact ⟨hw.blk, hw.st, hw.key, hw.schedule, hw.rkv, hw.xkey, hw.xpos, hfault, hw.inputs⟩

/-! ## Commands on the two datapaths commute (rule R259) -/

/-- The state with the XOR key store and the response port given, all else that of `s`. -/
def State.withXor (s x : State) (rsp : Option Response) : State :=
  { s with xkey := x.xkey, xklen := x.xklen, xpos := x.xpos, rsp := rsp }

/-- A rule that neither looks at the XOR key store and the response port nor writes them. -/
def Rule.IgnoresXor (rule : State → Rule) : Prop :=
  ∀ (s x : State) rsp, rule (s.withXor x rsp) = (rule s).map fun p => (p.1.withXor x rsp, p.2)

/-- A rule that looks at the XOR key store only and writes it only. -/
def Rule.OnlyXor (rule : State → Rule) : Prop :=
  ∀ (s x : State) rsp, rule (s.withXor x rsp) = (rule x).map fun p => (s.withXor p.1 rsp, p.2)

/-- A rule that ignores the XOR key store and the port leaves them as they were. -/
theorem Rule.IgnoresXor.keeps {rule : State → Rule} {s s' : State} {v : Word} (h : Rule.IgnoresXor rule)
    (e : rule s = .ok (s', v)) : s' = s'.withXor s s.rsp := by
  have hsame : rule s = (rule s).map fun p => (p.1.withXor s s.rsp, p.2) := h s s s.rsp
  simpa [e, Except.map] using hsame

/-- A rule that writes the XOR key store only leaves all else as it was. -/
theorem Rule.OnlyXor.keeps {rule : State → Rule} {s x : State} {v : Word} (h : Rule.OnlyXor rule)
    (e : rule s = .ok (x, v)) : x = s.withXor x s.rsp := by
  have hsame : rule s = (rule s).map fun p => (s.withXor p.1 s.rsp, p.2) := h s s s.rsp
  simpa [e, Except.map] using hsame

/-- What such a rule does with the XOR key store of `x` in `s`, it does in `x` too. -/
theorem Rule.OnlyXor.exists_of_ok {rule : State → Rule} {s x u : State} {rsp : Option Response} {v : Word}
    (h : Rule.OnlyXor rule) (e : rule (s.withXor x rsp) = .ok (u, v)) :
    ∃ x', rule x = .ok (x', v) ∧ u = s.withXor x' rsp := by
  rw [h] at e
  cases hx : rule x with
  | error code => rw [hx] at e; cases e
  | ok p => rw [hx] at e; cases e; exact ⟨_, rfl, rfl⟩

/-- A rule without checks ignores the XOR key store when its data and its writes do. -/
theorem Rule.IgnoresXor.ok {next : State → State} {value : State → Word}
    (hvalue : ∀ s x rsp, value (s.withXor x rsp) = value s)
    (hnext : ∀ s x rsp, next (s.withXor x rsp) = (next s).withXor x rsp) :
    Rule.IgnoresXor fun s => .ok (next s, value s) := by
  intro s x rsp
  simp only [hvalue, hnext, Except.map]

/-- A check that ignores the XOR key store may stand before a rule that does. -/
theorem Rule.IgnoresXor.bind {α : Type} {check : State → Except FaultCode α} {rule : α → State → Rule}
    (hcheck : ∀ s x rsp, check (s.withXor x rsp) = check s) (h : ∀ a, Rule.IgnoresXor (rule a)) :
    Rule.IgnoresXor fun s => check s >>= fun a => rule a s := by
  intro s x rsp
  simp only [hcheck]
  cases check s with
  | ok a => exact h a s x rsp
  | error e => rfl

/-- Every command but the XOR commands, `SRST` and `CSRR` ignores the XOR key store. -/
theorem exec_ignoresXor {i : Instr} (hi : ¬ (i = .xkclr ∨ (∃ x, i = .xkpush x) ∨ i = .xrst ∨ (∃ x, i = .xstep x) ∨
    i = .srst ∨ ∃ a, i = .csrr a)) :
    ∃ rule : State → Rule, (∀ s, exec i s = command i s (rule s)) ∧ Rule.IgnoresXor rule := by
  cases i
  case srst | csrr | xkclr | xkpush | xrst | xstep => simp at hi
  case nop | kclr | kpush | kexp | tost | frst | subb | isubb | shr | ishr | mixc | imixc | gfmul | sbox | isbox =>
    exact ⟨_, fun _ => rfl, .ok (fun _ _ _ => rfl) fun _ _ _ => rfl⟩
  case bwr | brd | enc | dec | rcon =>
    exact ⟨_, fun _ => rfl, .bind (fun _ _ _ => rfl) fun _ => .ok (fun _ _ _ => rfl) fun _ _ _ => rfl⟩
  case swr | srd =>
    exact ⟨_, fun _ => rfl, .bind (fun _ _ _ => rfl) fun _ => .bind (fun _ _ _ => rfl) fun _ =>
      .ok (fun _ _ _ => rfl) fun _ _ _ => rfl⟩
  case rkrd | ark =>
    exact ⟨_, fun _ => rfl, .bind (fun _ _ _ => rfl) fun _ => .bind (fun _ _ _ => rfl) fun _ =>
      .bind (fun _ _ _ => rfl) fun _ => .ok (fun _ _ _ => rfl) fun _ _ _ => rfl⟩

/-- A rule without checks looks at the XOR key store only and writes it only when its data and its writes do. -/
theorem Rule.OnlyXor.ok {next : State → State} {value : State → Word}
    (hvalue : ∀ s x rsp, value (State.withXor s x rsp) = value x)
    (hnext : ∀ s x rsp, next (State.withXor s x rsp) = State.withXor s (next x) rsp) :
    Rule.OnlyXor fun s => .ok (next s, value s) := by
  intro s x rsp
  simp only [hvalue, hnext, Except.map]

/-- The XOR commands look at the XOR key store only and write it only. -/
theorem exec_onlyXor {j : Instr} (hj : j = .xkclr ∨ (∃ x, j = .xkpush x) ∨ j = .xrst ∨ ∃ x, j = .xstep x) :
    ∃ rule : State → Rule, (∀ s, exec j s = command j s (rule s)) ∧ Rule.OnlyXor rule := by
  obtain rfl | ⟨v, rfl⟩ | rfl | ⟨v, rfl⟩ := hj
  case inl | inr.inr.inl => exact ⟨_, fun _ => rfl, .ok (fun _ _ _ => rfl) fun _ _ _ => rfl⟩
  case inr.inl | inr.inr.inr =>
    refine ⟨_, fun _ => rfl, fun s x rsp => ?_⟩
    rw [apply_dite (Except.map _)]
    rfl

/-- A command that answers with `rsp_ok = 1` ran on an unfaulted engine, and its rule gave the state and the data. -/
theorem command_executed {i : Instr} {s t : State} {r : Rule} {v : Word} (h : command i s r = .next t)
    (hok : t.rsp = some ⟨true, v⟩) : s.err = 0 ∧ ∃ s', r = .ok (s', v) ∧ t = s'.complete v := by
  obtain ⟨_, rfl⟩ | ⟨h0, s', v', e, rfl⟩ | ⟨_, e, _, rfl⟩ := command_cases h
  · simp at hok
  · obtain rfl : v' = v := by simpa using hok
    exact ⟨h0, s', e, rfl⟩
  · simp at hok

/-- Settles O53: the outcome of the one rule does not depend on the XOR key store, nor that of the other on anything else, so
either may come first. -/
theorem xorAndAesCommandsCommute : Obligations.XorAndAesCommandsCommute := by
  unfold Obligations.XorAndAesCommandsCommute
  intro i j s t u v w hj hi hexec hok hexec' hok'
  obtain ⟨aesRule, haes, hignores⟩ := exec_ignoresXor hi
  obtain ⟨xorRule, hxor, honly⟩ := exec_onlyXor hj
  obtain ⟨h0, s₁, hs₁, rfl⟩ := command_executed (haes s ▸ hexec) hok
  obtain ⟨h0', u₁, hu₁, rfl⟩ := command_executed (hxor _ ▸ hexec') hok'
  have hport : s₁.complete v = s₁.withXor s (some ⟨true, v⟩) := by
    conv_lhs => rw [hignores.keeps hs₁]
    rfl
  obtain ⟨x, hx, rfl⟩ := honly.exists_of_ok (hport ▸ hu₁)
  have hport' : x.complete w = s.withXor x (some ⟨true, w⟩) := by
    conv_lhs => rw [honly.keeps hx]
    rfl
  refine ⟨x.complete w, _, ?xorFirst, rfl, ?aesSecond, rfl⟩
  case xorFirst => rw [hxor, hx, command_ok h0]
  case aesSecond =>
    rw [haes, hport', hignores, hs₁]
    exact command_ok h0

end Sys2Proof.Machine
end

section
/-! The XOR datapath: the key store, stepping a text through it, and `xorText` (rules R190 to R196). -/

namespace Sys2Proof.Machine

/-! ## `xorText` (rule R190) -/

@[simp] theorem xorText_length (t k : List Char16) : (xorText t k).length = t.length := by simp [xorText]

@[simp] theorem xorText_getElem (t k : List Char16) (i : Nat) (h : i < (xorText t k).length) :
    (xorText t k)[i] = t[i]'(xorText_length t k ▸ h) ^^^ k.getD (i % k.length) 0 := by simp [xorText]

/-- The same key character is added twice at each position. -/
theorem xorText_xorText (t k : List Char16) : xorText (xorText t k) k = t := by
  apply List.ext_getElem
  · simp
  · intro i _ _
    rw [xorText_getElem, xorText_getElem, BitVec.xor_assoc, BitVec.xor_self, BitVec.xor_zero]

/-- Settles O48: position by position, from which the inverse follows. -/
theorem xorTextIsItsOwnInverse : Obligations.XorTextIsItsOwnInverse := by
  unfold Obligations.XorTextIsItsOwnInverse
  refine fun t k _ => ⟨xorText_length t k, fun i hi => ?_, xorText_xorText t k⟩
  rw [List.getD_eq_getElem _ _ (by simpa using hi), xorText_getElem, List.getD_eq_getElem t _ hi]

/-! ## The XOR commands (rules R192 to R195) -/

theorem exec_xkclr {s : State} (h0 : s.err = 0) : exec .xkclr s =
    .next (State.complete { s with xkey := Vector.replicate 256 0, xklen := 0, xpos := 0 } 0) :=
  command_ok (i := .xkclr) h0

theorem exec_xkpush {s : State} (v : Char16) (h0 : s.err = 0) (hlen : s.xklen.val < 256) : exec (.xkpush v) s =
    .next (State.complete { s with
      xkey := s.xkey.set s.xklen.val v, xklen := ⟨s.xklen.val + 1, Nat.succ_lt_succ hlen⟩, xpos := 0 } 0) := by
  rw [exec, execXkpush, dif_pos hlen]
  exact command_ok h0

theorem exec_xrst {s : State} (h0 : s.err = 0) : exec .xrst s = .next (State.complete { s with xpos := 0 } 0) :=
  command_ok (i := .xrst) h0

theorem exec_xstep {s : State} (v : Char16) (h0 : s.err = 0) (hlen : s.xklen.val ≠ 0) : exec (.xstep v) s =
    .next (State.complete { s with xpos := nextXpos s.xpos s.xklen hlen } (zext16 (v ^^^ s.xkey[s.xpos]))) := by
  rw [exec, execXstep, dif_neg hlen]
  exact command_ok h0

/-- Settles O46: a pushed character goes to the cell at `XKLEN`, and every cell of a cleared store is 0. -/
theorem xorKeyStoreIsLoaded : Obligations.XorKeyStoreIsLoaded := by
  unfold Obligations.XorKeyStoreIsLoaded
  refine fun s h0 => ⟨⟨_, exec_xkclr h0, fun i => Vector.getElem_replicate i.isLt, rfl⟩,
    fun v hlen => ⟨_, exec_xkpush v h0 hlen, fun i => ?cells, rfl, rfl⟩, exec_xrst h0⟩
  case cells => simp only [State.complete_xkey, Fin.getElem_fin, Vector.getElem_set, eq_comm]

/-- Settles O47: a key that is not empty passes the one check of `XSTEP`. -/
theorem xstepXorsAndAdvances : Obligations.XstepXorsAndAdvances := by
  unfold Obligations.XstepXorsAndAdvances
  exact fun s v h0 hlen => ⟨_, exec_xstep v h0 hlen, rfl, rfl⟩

/-! ## Loading an XOR key and stepping a text (rules R81, R196) -/

/-- The cells of the XOR key store with a key in them, 0 past its end.  Irreducible, so that comparing states never computes
the vector. -/
@[irreducible] def xorCells (key : List Char16) : Vector Char16 256 := Vector.ofFn fun i => key.getD i.val 0

@[simp] theorem xorCells_getElem (key : List Char16) (i : Nat) (h : i < 256) : (xorCells key)[i] = key.getD i 0 := by
  unfold xorCells; simp

/-- The state with a key in its XOR key store and `XPOS` at `pos`. -/
def State.loadXor (s : State) (key : List Char16) (pos : Nat) : State :=
  { s with xkey := xorCells key, xklen := Fin.ofNat 257 key.length, xpos := Fin.ofNat 256 pos }

/-- No characters leave the cells `XKCLR` leaves (rule R192). -/
theorem xorCells_nil : xorCells [] = Vector.replicate 256 0 := by
  apply Vector.ext
  intro i hi
  rw [xorCells_getElem, Vector.getElem_replicate]
  rfl

/-- One more character goes to the cell at the key's length (rule R193). -/
theorem xorCells_set (key : List Char16) (v : Char16) (h : key.length < 256) :
    (xorCells key).set key.length v = xorCells (key ++ [v]) := by
  apply Vector.ext
  intro i hi
  rw [Vector.getElem_set, xorCells_getElem, xorCells_getElem]
  obtain hlt | rfl | hgt := Nat.lt_trichotomy i key.length
  · rw [if_neg hlt.ne', List.getD_append _ _ _ _ hlt]
  · rw [if_pos rfl, List.getD_append_right _ _ _ _ le_rfl, Nat.sub_self]; rfl
  · rw [if_neg hgt.ne, List.getD_eq_default _ _ hgt.le, List.getD_eq_default _ _ (by simp; omega)]

/-- `XKPUSH` appends its character to the key pushed so far. -/
theorem exec_xkpush_loadXor {s : State} (key : List Char16) (v : Char16) (h0 : s.err = 0) (hlen : key.length < 256)
    (port : Option Response) :
    exec (.xkpush v) { s.loadXor key 0 with rsp := port } = .next ((s.loadXor (key ++ [v]) 0).complete 0) := by
  have hn : (Fin.ofNat 257 key.length).val = key.length := Nat.mod_eq_of_lt (by omega)
  have hn' : Fin.ofNat 257 (key ++ [v]).length = ⟨key.length + 1, by omega⟩ := by
    apply Fin.ext
    simp; omega
  refine (exec_xkpush v (by exact h0) (by exact hn.trans_lt hlen)).trans ?_
  simp only [State.loadXor, hn, hn', xorCells_set key v hlen]
  rfl

/-- `XKCLR` and `XKPUSH` of every character load a key that fits. -/
theorem runCommands_ldxkey {s : State} (key : List Char16) (h0 : s.err = 0) (hlen : key.length ≤ 256) :
    runCommands s (Pseudo.ldxkey key).expand =
      some ((s.loadXor key 0).complete 0, okResponses (fun _ => 0) (key.length + 1)) := by
  have hclear : transact s (encode .xkclr) = some ((s.loadXor [] 0).complete 0, ⟨true, 0⟩) := by
    refine transact_command (decode_encode _) ?_ rfl
    rw [State.loadXor, xorCells_nil]
    exact exec_xkclr h0
  have hpush := runCommands_chain (is := key.map .xkpush) (st := fun k => s.loadXor (key.take k) 0) (data := fun _ => 0)
    (fun k hk => by
      have hk' : k < key.length := by simpa using hk
      rw [List.getElem_map, ← List.take_append_getElem hk']
      exact exec_xkpush_loadXor _ _ h0 (by simp; omega) none)
    (some ⟨true, 0⟩)
  rw [Pseudo.expand, runCommands_cons hclear hpush, okResponses_succ, List.length_map, List.take_length,
    okResponses_zero_getLast?_or]
  rfl

/-- `XSTEP` at a position inside the key adds the key character there and goes on, back to the start at the key's end. -/
theorem exec_xstep_loadXor {s : State} (key : List Char16) (v : Char16) (k : Nat) (h0 : s.err = 0) (hpos : 1 ≤ key.length)
    (hlen : key.length ≤ 256) (port : Option Response) :
    exec (.xstep v) { s.loadXor key (k % key.length) with rsp := port } =
      .next ((s.loadXor key ((k + 1) % key.length)).complete (zext16 (v ^^^ key.getD (k % key.length) 0))) := by
  have hk : k % key.length < key.length := Nat.mod_lt _ hpos
  have hn : (Fin.ofNat 257 key.length).val = key.length := Nat.mod_eq_of_lt (by omega)
  have hx : (Fin.ofNat 256 (k % key.length)).val = k % key.length := Nat.mod_eq_of_lt (by omega)
  have hnext : nextXpos (Fin.ofNat 256 (k % key.length)) (Fin.ofNat 257 key.length) (by omega) =
      Fin.ofNat 256 ((k + 1) % key.length) := by
    apply Fin.ext
    have hlt : (k + 1) % key.length < key.length := Nat.mod_lt _ hpos
    simp only [nextXpos, hx, hn, Nat.mod_add_mod, Fin.val_ofNat]
    omega
  refine (exec_xstep v (by exact h0) (by exact hn.trans_ne (by omega))).trans ?_
  simp only [State.loadXor, hnext, Fin.getElem_fin, hx, xorCells_getElem]
  rfl

/-- `XRST` and an `XSTEP` for each character respond with the text through the key, which starts at its first character. -/
theorem runCommands_xtext {s : State} (key text : List Char16) (pos : Nat) (h0 : s.err = 0) (hpos : 1 ≤ key.length)
    (hlen : key.length ≤ 256) (port : Option Response) : ∃ rsp,
    runCommands { s.loadXor key pos with rsp := port } (Pseudo.xtext text).expand =
      some ({ s.loadXor key (text.length % key.length) with rsp := rsp },
        ⟨true, 0⟩ :: (xorText text key).map fun v => ⟨true, zext16 v⟩) := by
  have hrst : transact { s.loadXor key pos with rsp := port } (encode .xrst) =
      some ((s.loadXor key (0 % key.length)).complete 0, ⟨true, 0⟩) := by
    refine transact_command (decode_encode _) ?_ rfl
    rw [Nat.zero_mod]
    exact exec_xrst h0
  have hstep := runCommands_chain (is := text.map .xstep) (st := fun k => s.loadXor key (k % key.length))
    (data := fun k => zext16 (text.getD k 0 ^^^ key.getD (k % key.length) 0))
    (fun k hk => by
      have hk' : k < text.length := by simpa using hk
      rw [List.getElem_map, List.getD_eq_getElem _ _ hk']
      exact exec_xstep_loadXor key _ k h0 hpos hlen none)
    (some ⟨true, 0⟩)
  have hrs : okResponses (fun k => zext16 (text.getD k 0 ^^^ key.getD (k % key.length) 0)) (text.map Instr.xstep).length =
      (xorText text key).map fun v => ⟨true, zext16 v⟩ := by
    apply List.ext_getElem
    · simp
    · intro k _ hk
      have hk' : k < text.length := by simpa using hk
      simp [okResponses, hk']
  rw [hrs, List.length_map] at hstep
  exact ⟨_, runCommands_cons hrst hstep⟩

/-- Settles O49: the key is loaded from its first character on, and stepping goes round it from there. -/
theorem steppingATextComputesXorText : Obligations.SteppingATextComputesXorText := by
  unfold Obligations.SteppingATextComputesXorText
  intro s k text h0 hpos hlen
  obtain ⟨rsp, hrun⟩ := runCommands_xtext k text 0 h0 hpos hlen (some ⟨true, 0⟩)
  refine ⟨_, _, _, _, runCommands_ldxkey k h0 hlen, fun r hr => ?responses, hrun, rfl, ?xpos⟩
  case responses => obtain ⟨_, _, rfl⟩ := exists_of_mem_okResponses hr; rfl
  case xpos =>
    have hlt : text.length % k.length < k.length := Nat.mod_lt _ hpos
    exact Nat.mod_eq_of_lt (by omega)

end Sys2Proof.Machine
end

section
/-! Padding (rules R202 to R207). -/

namespace Sys2Proof.Machine.Contract

/-- Padding fills the last block, or adds one (rule R203). -/
theorem pad_length (bytes : List Byte) : (pad bytes).length = 16 * (bytes.length / 16 + 1) := by
  simp only [pad, List.length_append, List.length_replicate]; omega

/-- A sequence that ends with `p` bytes of value `p`, 1 to 16, is one with a valid pad (rule R206). -/
theorem unpad_append_replicate (bytes : List Byte) {p : Nat} (hp : 1 ≤ p) (hp' : p ≤ 16) :
    unpad (bytes ++ List.replicate p (BitVec.ofNat 8 p)) = bytes := by
  have hlast : (bytes ++ List.replicate p (BitVec.ofNat 8 p)).getLast? = some (BitVec.ofNat 8 p) := by
    rw [List.getLast?_append, List.getLast?_replicate, if_neg (by omega), Option.some_or]
  have hvalue : (BitVec.ofNat 8 p).toNat = p := by rw [BitVec.toNat_ofNat]; omega
  have hlen : (bytes ++ List.replicate p (BitVec.ofNat 8 p)).length - p = bytes.length := by simp
  rw [unpad, hlast]
  simp only [hvalue, hlen, List.drop_left, List.take_left]
  exact if_pos ⟨hp, hp', by simp, trivial⟩

/-- Unpadding undoes padding (rule R207). -/
theorem unpad_pad (bytes : List Byte) : unpad (pad bytes) = bytes :=
  unpad_append_replicate bytes (by omega) (Nat.sub_le _ _)

/-- Settles O54: the number of bytes added is their value, which is what `unpad` reads. -/
theorem paddingFillsBlocksAndIsUndone : Obligations.PaddingFillsBlocksAndIsUndone := by
  unfold Obligations.PaddingFillsBlocksAndIsUndone
  intro bytes
  exact ⟨⟨_, by omega, Nat.sub_le _ _, rfl, rfl⟩, pad_length bytes, unpad_pad bytes⟩

end Sys2Proof.Machine.Contract
end

section
/-! Wire text: its tokens, what it parses to, and what makes it malformed (rules R210 to R213, R217, R218, R233). -/

namespace Sys2Proof.Machine.Contract

/-! ## Tokens of a text (rule R211) -/

/-- Pieces without spaces, joined by single spaces, are found again. -/
theorem splitSpaces_intercalate {pieces : List (List Nat)} (hne : pieces ≠ [])
    (h : ∀ piece ∈ pieces, ∀ c ∈ piece, c ≠ space) : splitSpaces (List.intercalate [space] pieces) = pieces := by
  induction pieces with
  | nil => exact absurd rfl hne
  | cons p ps ih =>
    obtain ⟨hp, hps⟩ := List.forall_mem_cons.mp h
    cases ps with
    | nil => simpa using splitSpaces_of_no_space hp
    | cons q qs =>
      rw [List.intercalate_cons_cons, List.append_assoc, List.singleton_append, splitSpaces_append_space,
        splitSpaces_of_no_space hp, ih (List.cons_ne_nil q qs) hps, List.singleton_append]

/-- Spaces at the end of a text add empty pieces. -/
theorem splitSpaces_append_spaces (t : List Nat) (n : Nat) :
    splitSpaces (t ++ List.replicate n space) = splitSpaces t ++ List.replicate n [] := by
  induction n generalizing t with
  | zero => simp
  | succ n ih =>
    rw [List.replicate_succ, List.append_cons, ih, splitSpaces_append_space]
    simp [splitSpaces, List.replicate_succ]

/-- Empty pieces at the end are dropped, and no others (rule R211). -/
theorem tokens_of_splitSpaces {t : List Nat} {pieces : List (List Nat)} {n : Nat}
    (h : splitSpaces t = pieces ++ List.replicate n []) (hlast : ∀ piece ∈ pieces.getLast?, piece ≠ []) :
    tokens t = pieces := by
  have hdrop (n : Nat) : (pieces ++ List.replicate n []).rdropWhile List.isEmpty = pieces.rdropWhile List.isEmpty := by
    induction n with
    | zero => simp
    | succ n ih => rw [List.replicate_succ', ← List.append_assoc, List.rdropWhile_concat_pos _ _ _ rfl, ih]
  have hself : pieces.rdropWhile List.isEmpty = pieces :=
    List.rdropWhile_eq_self_iff.mpr fun hne => by
      have := hlast _ (List.getLast?_eq_getLast_of_ne_nil hne)
      simpa using this
  rw [tokens, h]
  exact (hdrop n).trans hself

/-- The tokens of a wire text are those it was made of. -/
theorem tokens_wireTextOf {toks : List (List Nat)} (trailing : Nat)
    (h : ∀ token ∈ toks, token ≠ [] ∧ ∀ c ∈ token, c ≠ space) : tokens (wireTextOf toks trailing) = toks := by
  have hlast : ∀ token ∈ toks.getLast?, token ≠ [] := fun token ht => (h token (List.mem_of_getLast? ht)).1
  by_cases hne : toks = []
  · subst hne
    refine tokens_of_splitSpaces (n := trailing + 1) ?_ hlast
    exact splitSpaces_append_spaces [] trailing
  · refine tokens_of_splitSpaces (n := trailing) ?_ hlast
    rw [wireTextOf]
    exact (splitSpaces_append_spaces _ _).trans
      (congrArg (· ++ _) (splitSpaces_intercalate hne fun token ht => (h token ht).2))

/-! ## Numeric tokens (rules R210, R211, R218) -/

/-- A token that is a number parses to the value it writes. -/
theorem parseBounded_of_isNumber {max : Nat} {token : List Nat} (h : IsNumber max token) :
    parseBounded max token = some (tokenValue token) := by
  obtain ⟨hne, hdigits, hmax⟩ := h
  have hall : token.all isDigit = true := by simpa [isDigit] using hdigits
  rw [parseBounded, parseToken, if_pos ⟨hne, hall⟩]
  exact if_pos hmax

/-- A token does not parse when it is no number. -/
theorem parseBounded_eq_none_iff (max : Nat) (token : List Nat) : parseBounded max token = none ↔ ¬ IsNumber max token := by
  constructor
  · intro h hnum
    rw [parseBounded_of_isNumber hnum] at h
    cases h
  · intro h
    unfold parseBounded parseToken
    split
    · next n htok =>
      split at htok
      · next hd =>
        obtain rfl : tokenValue token = n := Option.some.inj htok
        refine if_neg fun hmax => h ⟨hd.1, by simpa [isDigit] using hd.2, hmax⟩
      · cases htok
    · rfl

/-- No token that is a number holds a space. -/
theorem no_space_of_isNumber {max : Nat} {token : List Nat} (h : IsNumber max token) : ∀ c ∈ token, c ≠ space := by
  obtain ⟨_, hdigits, _⟩ := h
  rintro c hc rfl
  exact absurd (hdigits _ hc).1 (by decide)

/-- A text of numbers parses to the values they write (rules R211, R218). -/
theorem parseTokens_wireTextOf {max : Nat} {toks : List (List Nat)} (trailing : Nat)
    (h : ∀ token ∈ toks, IsNumber max token) : parseTokens max (wireTextOf toks trailing) = some (toks.map tokenValue) := by
  have htokens := tokens_wireTextOf trailing fun token ht => ⟨(h token ht).1, no_space_of_isNumber (h token ht)⟩
  rw [parseTokens, htokens]
  clear htokens
  induction toks with
  | nil => rfl
  | cons token toks ih =>
    obtain ⟨htoken, htoks⟩ := List.forall_mem_cons.mp h
    rw [List.mapM_cons, parseBounded_of_isNumber htoken, ih htoks]
    rfl

/-- The decimal digits of a number write that number (rule R210). -/
theorem tokenValue_decimal (n : Nat) : tokenValue (decimal n) = n := by
  rw [tokenValue, decimal, List.foldl_map]
  exact (Nat.ofDigitChars_eq_foldl).symm.trans Nat.ofDigitChars_ten_toDigits

/-- The decimal representation of a number is a numeric token (rules R210, R211). -/
theorem isNumber_decimal {max n : Nat} (h : n ≤ max) : IsNumber max (decimal n) := by
  refine ⟨by simp [decimal, Nat.toDigits_ne_nil], fun c hc => ?_, (tokenValue_decimal n).trans_le h⟩
  obtain ⟨d, hd, rfl⟩ := List.mem_map.mp hc
  have hdigit : d.isDigit = true := Nat.isDigit_of_mem_toDigits (by decide) (by decide) hd
  simpa [Char.isDigit, UInt32.le_iff_toNat_le] using hdigit

/-! ## Parsing what was encoded (rules R210 to R212, R217, R218) -/

/-- AES wire text is a text of numbers with nothing after the last (rule R210). -/
theorem wireEncode_eq (bytes : List Byte) : wireEncode bytes = wireTextOf (bytes.map fun b => decimal b.toNat) 0 :=
  (List.append_nil _).symm

/-- XOR wire text of at least one unit is a text of numbers with one space after the last (rule R217). -/
theorem xorWireEncode_eq {values : List Char16} (hne : values ≠ []) :
    xorWireEncode values = wireTextOf (values.map fun v => decimal v.toNat) 1 := by
  induction values with
  | nil => exact absurd rfl hne
  | cons v vs ih =>
    cases vs with
    | nil => simp [xorWireEncode, wireTextOf, space]
    | cons u us =>
      have ih := ih (List.cons_ne_nil u us)
      rw [xorWireEncode] at ih ⊢
      rw [List.flatMap_cons, ih]
      simp only [wireTextOf, List.map_cons, List.intercalate_cons_cons, List.append_assoc]
      rfl

/-- AES wire text of numbers parses to the bytes they write (rule R211). -/
theorem wireParse_wireTextOf {toks : List (List Nat)} (trailing : Nat) (h : ∀ token ∈ toks, IsNumber 255 token) :
    wireParse (wireTextOf toks trailing) = some (toks.map fun token => BitVec.ofNat 8 (tokenValue token)) := by
  rw [wireParse, parseTokens_wireTextOf trailing h, Option.map_some, List.map_map]
  rfl

/-- Parsing undoes AES encoding (rule R212). -/
theorem wireParse_wireEncode (bytes : List Byte) : wireParse (wireEncode bytes) = some bytes := by
  have hnum : ∀ token ∈ bytes.map (fun b => decimal b.toNat), IsNumber 255 token :=
    List.forall_mem_map.mpr fun b _ => isNumber_decimal (Nat.le_of_lt_succ b.isLt)
  rw [wireEncode_eq, wireParse_wireTextOf 0 hnum, List.map_map]
  simp [Function.comp_def, tokenValue_decimal]

/-- Parsing undoes XOR encoding of at least one unit (rules R217, R218). -/
theorem xorWireParse_xorWireEncode {values : List Char16} (hne : values ≠ []) :
    xorWireParse (xorWireEncode values) = some values := by
  have hnum : ∀ token ∈ values.map (fun v => decimal v.toNat), IsNumber 65535 token :=
    List.forall_mem_map.mpr fun v _ => isNumber_decimal (Nat.le_of_lt_succ v.isLt)
  rw [xorWireEncode_eq hne, xorWireParse, parseTokens_wireTextOf 1 hnum, Option.map_some, List.map_map, List.map_map]
  simp [Function.comp_def, tokenValue_decimal]

/-- Settles O55: encoded text is numbers of at most 255, and the value of each is the byte. -/
theorem wireParseUndoesWireEncode : Obligations.WireParseUndoesWireEncode := by
  unfold Obligations.WireParseUndoesWireEncode
  exact ⟨wireParse_wireEncode, fun _ trailing h => wireParse_wireTextOf trailing h⟩

/-! ## Malformed text (rule R233) -/

/-- A text is determined by its pieces. -/
theorem splitSpaces_injective : Function.Injective splitSpaces :=
  Function.LeftInverse.injective intercalate_splitSpaces

/-- The characters of the pieces are the characters of the text but the spaces. -/
theorem exists_mem_splitSpaces_iff {t : List Nat} {c : Nat} : (∃ piece ∈ splitSpaces t, c ∈ piece) ↔ c ∈ t ∧ c ≠ space := by
  induction t with
  | nil => simp [splitSpaces]
  | cons d ds ih =>
    rw [splitSpaces]
    by_cases hd : d = space
    · rw [if_pos hd, hd, List.mem_cons, or_and_right, ← ih]
      simp
    · rw [if_neg hd]
      cases hpieces : splitSpaces ds with
      | nil => exact absurd hpieces (splitSpaces_ne_nil ds)
      | cons p ps =>
        rw [hpieces] at ih
        rw [List.mem_cons, or_and_right, ← ih]
        have hc : c = d ∧ c ≠ space ↔ c = d := and_iff_left_of_imp fun e => e ▸ hd
        simp [hc, or_assoc]

/-- What stands before a piece, `before`, holds the pieces `pre` and ends at a space. -/
def EndsPieces (pre : List (List Nat)) (before : List Nat) : Prop :=
  (before = [] ∧ pre = []) ∨ ∃ b, before = b ++ [space] ∧ splitSpaces b = pre

/-- What stands after a piece, `after`, begins with a space and holds the pieces `post`. -/
def BeginsPieces (post : List (List Nat)) (after : List Nat) : Prop :=
  (after = [] ∧ post = []) ∨ ∃ a, after = space :: a ∧ splitSpaces a = post

/-- A piece stands between spaces, or between a space and an end of the text. -/
theorem splitSpaces_around {before token after : List Nat} {pre post : List (List Nat)} (hb : EndsPieces pre before)
    (ha : BeginsPieces post after) (htoken : ∀ c ∈ token, c ≠ space) :
    splitSpaces (before ++ token ++ after) = pre ++ token :: post := by
  have hhead : splitSpaces (before ++ token) = pre ++ [token] := by
    obtain ⟨rfl, rfl⟩ | ⟨b, rfl, rfl⟩ := hb
    · exact splitSpaces_of_no_space htoken
    · rw [List.append_assoc, List.singleton_append, splitSpaces_append_space, splitSpaces_of_no_space htoken]
  obtain ⟨rfl, rfl⟩ | ⟨a, rfl, rfl⟩ := ha
  · rw [List.append_nil, hhead]
  · rw [splitSpaces_append_space, hhead, List.append_assoc, List.singleton_append]

/-- Any pieces without spaces may stand before a piece. -/
theorem exists_endsPieces {pre : List (List Nat)} (h : ∀ piece ∈ pre, ∀ c ∈ piece, c ≠ space) :
    ∃ before, EndsPieces pre before := by
  by_cases hne : pre = []
  · exact ⟨[], .inl ⟨rfl, hne⟩⟩
  · exact ⟨_, .inr ⟨_, rfl, splitSpaces_intercalate hne h⟩⟩

/-- Any pieces without spaces may stand after a piece. -/
theorem exists_beginsPieces {post : List (List Nat)} (h : ∀ piece ∈ post, ∀ c ∈ piece, c ≠ space) :
    ∃ after, BeginsPieces post after := by
  by_cases hne : post = []
  · exact ⟨[], .inl ⟨rfl, hne⟩⟩
  · exact ⟨_, .inr ⟨_, rfl, splitSpaces_intercalate hne h⟩⟩

/-- Each piece of a text stands in it between its neighbours. -/
theorem exists_eq_of_splitSpaces {t token : List Nat} {pre post : List (List Nat)}
    (h : splitSpaces t = pre ++ token :: post) :
    ∃ before after, t = before ++ token ++ after ∧ EndsPieces pre before ∧ BeginsPieces post after := by
  have hspace : ∀ piece ∈ pre ++ token :: post, ∀ c ∈ piece, c ≠ space := h ▸ splitSpaces_no_space
  obtain ⟨before, hb⟩ := exists_endsPieces (pre := pre) fun piece hp => hspace piece (by simp [hp])
  obtain ⟨after, ha⟩ := exists_beginsPieces (post := post) fun piece hp => hspace piece (by simp [hp])
  refine ⟨before, after, splitSpaces_injective ?_, hb, ha⟩
  rw [h, splitSpaces_around hb ha (hspace token (by simp))]

/-- A token that is no number holds a character that is no digit, is empty, or writes too large a number. -/
theorem not_isNumber_iff (max : Nat) (token : List Nat) :
    ¬ IsNumber max token ↔ (∃ c ∈ token, c < 48 ∨ 57 < c) ∨ token = [] ∨ max < tokenValue token := by
  have hdigits : (¬ ∀ c ∈ token, 48 ≤ c ∧ c ≤ 57) ↔ ∃ c ∈ token, c < 48 ∨ 57 < c := by
    simp only [not_forall, not_and_or, not_le, exists_prop]
  rw [IsNumber, not_and_or, not_and_or, hdigits, not_not, not_le, or_left_comm]

/-- A piece is a token unless it and all pieces after it are empty (rule R211). -/
theorem mem_tokens_of_splitSpaces {t token piece : List Nat} {pre post : List (List Nat)}
    (h : splitSpaces t = pre ++ token :: post) (hmem : piece ∈ token :: post) (hne : piece ≠ []) : token ∈ tokens t := by
  obtain ⟨⟨n, hpieces⟩, _⟩ := tokens_spec t
  have hkept : piece ∉ List.replicate n [] := fun hr => hne (List.eq_of_mem_replicate hr)
  rw [hpieces, List.append_eq_append_iff] at h
  obtain ⟨dropped, _, hr⟩ | ⟨kept, htokens, hr⟩ := h
  · exact absurd (hr ▸ List.mem_append_right dropped hmem) hkept
  · cases kept with
    | nil => exact absurd ((List.nil_append _).subst hr ▸ hmem) hkept
    | cons first rest =>
      obtain rfl : token = first := (List.cons.inj hr).1
      simp [htokens]

/-- A text that is malformed at a piece has a token there that is no number. -/
theorem exists_not_isNumber_of_hasBadToken {max : Nat} {t : List Nat} (h : HasBadToken max t) :
    ∃ token ∈ tokens t, ¬ IsNumber max token := by
  obtain ⟨before, token, after, rfl, hb, ha, htoken, hbad⟩ := h
  obtain ⟨pre, hpre⟩ : ∃ pre, EndsPieces pre before :=
    hb.elim (fun e => ⟨[], .inl ⟨e, rfl⟩⟩) fun ⟨b, e⟩ => ⟨_, .inr ⟨b, e, rfl⟩⟩
  obtain ⟨post, hpost⟩ : ∃ post, BeginsPieces post after :=
    ha.elim (fun e => ⟨[], .inl ⟨e, rfl⟩⟩) fun ⟨a, e⟩ => ⟨_, .inr ⟨a, e, rfl⟩⟩
  have hsplit := splitSpaces_around hpre hpost htoken
  have hnum := not_isNumber_iff max token
  obtain ⟨c, hc, hchar⟩ | ⟨rfl, c, hc, hspace⟩ | hvalue := hbad
  · have hne : token ≠ [] := List.ne_nil_of_mem hc
    exact ⟨token, mem_tokens_of_splitSpaces hsplit List.mem_cons_self hne, hnum.mpr (.inl ⟨c, hc, hchar⟩)⟩
  · obtain ⟨rfl, _⟩ | ⟨a, rfl, rfl⟩ := hpost
    · simp at hc
    · have hca : c ∈ a := (List.mem_cons.mp hc).resolve_left hspace
      obtain ⟨piece, hpiece, hcp⟩ := exists_mem_splitSpaces_iff.mpr ⟨hca, hspace⟩
      exact ⟨[], mem_tokens_of_splitSpaces hsplit (List.mem_cons_of_mem _ hpiece) (List.ne_nil_of_mem hcp),
        hnum.mpr (.inr (.inl rfl))⟩
  · have hne : token ≠ [] := by rintro rfl; exact Nat.not_lt_zero _ hvalue
    exact ⟨token, mem_tokens_of_splitSpaces hsplit List.mem_cons_self hne, hnum.mpr (.inr (.inr hvalue))⟩

/-- A text with a token that is no number is malformed there: after an empty token comes another that is not. -/
theorem hasBadToken_of_not_isNumber {max : Nat} {t token : List Nat} (htoken : token ∈ tokens t)
    (hbad : ¬ IsNumber max token) : HasBadToken max t := by
  obtain ⟨⟨n, hpieces⟩, hlast⟩ := tokens_spec t
  obtain ⟨pre, post, htokens⟩ := List.append_of_mem htoken
  have hsplit : splitSpaces t = pre ++ token :: (post ++ List.replicate n []) := by
    rw [hpieces, htokens, List.append_assoc, List.cons_append]
  obtain ⟨before, after, ht, hb, ha⟩ := exists_eq_of_splitSpaces hsplit
  refine ⟨before, token, after, ht, hb.imp And.left fun ⟨b, e, _⟩ => ⟨b, e⟩, ha.imp And.left fun ⟨a, e, _⟩ => ⟨a, e⟩,
    splitSpaces_no_space (t := t) token (by simp [hsplit]), ?_⟩
  obtain hchar | rfl | hvalue := (not_isNumber_iff max token).mp hbad
  · exact .inl hchar
  · obtain rfl | ⟨init, last, rfl⟩ := post.eq_nil_or_concat'
    · exact absurd rfl (hlast [] (by simp [htokens]))
    · have hget : (tokens t).getLast? = some last := by
        rw [htokens, List.getLast?_append_cons, ← List.cons_append, List.getLast?_concat]
      obtain ⟨c, hc⟩ := List.exists_mem_of_ne_nil last (hlast last hget)
      obtain ⟨_, hnil⟩ | ⟨a, rfl, hpost⟩ := ha
      · simp at hnil
      · obtain ⟨hca, hspace⟩ := exists_mem_splitSpaces_iff (t := a).mp ⟨last, by simp [hpost], hc⟩
        exact .inr (.inl ⟨rfl, c, List.mem_cons_of_mem _ hca, hspace⟩)
  · exact .inr (.inr hvalue)

/-- Some token of a text is no number exactly when a malformed piece stands in it. -/
theorem exists_not_isNumber_iff (max : Nat) (t : List Nat) :
    (∃ token ∈ tokens t, ¬ IsNumber max token) ↔ HasBadToken max t :=
  ⟨fun ⟨_, htoken, hbad⟩ => hasBadToken_of_not_isNumber htoken hbad, exists_not_isNumber_of_hasBadToken⟩

/-- A text does not parse exactly when it is malformed (rules R211, R218, R233). -/
theorem parseTokens_eq_none_iff_hasBadToken (max : Nat) (t : List Nat) : parseTokens max t = none ↔ HasBadToken max t := by
  simp only [parseTokens_eq_none_iff, parseBounded_eq_none_iff, exists_not_isNumber_iff]

theorem wireParse_eq_none_iff (t : List Nat) : wireParse t = none ↔ HasBadToken 255 t := by
  rw [wireParse, Option.map_eq_none_iff, parseTokens_eq_none_iff_hasBadToken]

theorem xorWireParse_eq_none_iff (t : List Nat) : xorWireParse t = none ↔ HasBadToken 65535 t := by
  rw [xorWireParse, Option.map_eq_none_iff, parseTokens_eq_none_iff_hasBadToken]

/-- Settles O56: each decrypt path parses first, and the AES path counts the numbers next. -/
theorem malformedCiphertextIsRaised : Obligations.MalformedCiphertextIsRaised := by
  unfold Obligations.MalformedCiphertextIsRaised
  refine ⟨fun t => ⟨wireParse_eq_none_iff t, xorWireParse_eq_none_iff t⟩,
    fun s w key => ⟨fun hbad => ?aes, fun toks trailing hnum hw hcount => ?count⟩, fun s w key hbad => ?xor⟩
  case aes => rw [decrypt, codePoints, (wireParse_eq_none_iff _).mpr hbad]
  case count =>
    rw [decrypt, codePoints, hw, wireParse_wireTextOf trailing hnum]
    exact if_pos (by rwa [List.length_map])
  case xor => rw [xorDecrypt, unitPoints, (xorWireParse_eq_none_iff _).mpr hbad]

end Sys2Proof.Machine.Contract
end

section
/-! The host drives the engine, and the XOR text path: `processXOR` twice (rules R217 to R219, R240). -/

namespace Sys2Proof.Machine.Contract

/-- Commands whose responses are all ok give the host their data (rule R240). -/
theorem runOk_of_runCommands {s t : State} {is : List Instr} {rs : List Response} (h : runCommands s is = some (t, rs))
    (hok : ∀ r ∈ rs, r.ok = true) : runOk s is = .ok (t, rs.map Response.data) := by
  have hall : rs.all Response.ok = true := List.all_eq_true.mpr hok
  rw [runOk, h]
  exact if_pos hall

/-- The host goes on after a part that succeeded. -/
theorem host_ok_bind {α β : Type} (a : α) (f : α → Except HostError β) : (Except.ok a >>= f) = f a := rfl

/-- The response of a command that executed is ok. -/
theorem ok_of_mem_okResponses {data : Nat → Word} {n : Nat} {r : Response} (h : r ∈ okResponses data n) : r.ok = true := by
  obtain ⟨_, _, rfl⟩ := exists_of_mem_okResponses h; rfl

/-- The host gets a text through a key that fits (rules R196, R217). -/
theorem xorUnits_ok {s : State} (text key : List Char16) (h0 : s.err = 0) (hpos : 1 ≤ key.length) (hlen : key.length ≤ 256) :
    ∃ t, xorUnits s text key = .ok (t, xorText text key) := by
  have hkey : ¬ (key.length = 0 ∨ 256 < key.length) := by omega
  have hload := runOk_of_runCommands (runCommands_ldxkey key h0 hlen) fun _ => ok_of_mem_okResponses
  obtain ⟨rsp, hrun⟩ := runCommands_xtext key text 0 h0 hpos hlen (some ⟨true, 0⟩)
  have hstep := runOk_of_runCommands (s := (s.loadXor key 0).complete 0) hrun (by simp)
  have hunits : ((List.map Response.data (⟨true, 0⟩ :: (xorText text key).map fun v => ⟨true, zext16 v⟩)).drop 1).map
      (fun w => w.setWidth 16) = xorText text key := by simp [Function.comp_def]
  simp only [xorUnits, if_neg hkey, hload, host_ok_bind, hstep]
  exact ⟨_, congrArg (fun units => Except.ok (_, units)) hunits⟩

/-- The digits of a number, and spaces, are all that wire text holds. -/
theorem isDigit_or_space_of_mem_xorWireEncode {values : List Char16} {c : Nat} (h : c ∈ xorWireEncode values) :
    isDigit c = true ∨ c = space := by
  obtain ⟨v, _, hc⟩ := List.mem_flatMap.mp h
  obtain hc | hc := List.mem_append.mp hc
  · obtain ⟨_, hdigits, _⟩ := isNumber_decimal (le_refl v.toNat)
    exact .inl (by simpa [isDigit] using hdigits c hc)
  · exact .inr (List.mem_singleton.mp hc)

/-- Wire text of at least one unit is taken for ciphertext (rules R215, R217). -/
theorem looksEncryptedXor_xorWireEncode {values : List Char16} (hne : values ≠ []) :
    looksEncryptedXor (xorWireEncode values) = true := by
  obtain ⟨v, hv⟩ := List.exists_mem_of_ne_nil values hne
  have hspace : space ∈ xorWireEncode values := List.mem_flatMap.mpr ⟨v, hv, by simp⟩
  rw [looksEncryptedXor, Bool.and_eq_true, List.all_eq_true, List.contains_iff_mem]
  exact ⟨fun c hc => by simpa using isDigit_or_space_of_mem_xorWireEncode hc, hspace⟩

/-- The characters of XOR wire text are units as they are. -/
theorem unitPoints_xorWireEncode (values : List Char16) :
    unitPoints ((xorWireEncode values).map (BitVec.ofNat 16)) = xorWireEncode values := by
  have hunit : ∀ c ∈ xorWireEncode values, (BitVec.ofNat 16 c).toNat = c := by
    intro c hc
    have hlt : c < 65536 := by
      obtain hd | rfl := isDigit_or_space_of_mem_xorWireEncode hc
      · simp [isDigit] at hd; omega
      · decide
    rw [BitVec.toNat_ofNat, Nat.mod_eq_of_lt hlt]
  rw [unitPoints, List.map_map]
  exact (List.map_congr_left hunit).trans (List.map_id _)

/-- A text that is not taken for ciphertext is encrypted (rules R217, R219). -/
theorem processWithXor_plain {s : State} {text key : List Char16} (h0 : s.err = 0) (hpos : 1 ≤ key.length)
    (hlen : key.length ≤ 256) (hplain : looksEncryptedXor (unitPoints text) = false) : ∃ t,
    processWithXor s text key = .ok (t, (xorWireEncode (xorText text key)).map (BitVec.ofNat 16)) := by
  obtain ⟨t, ht⟩ := xorUnits_ok text key h0 hpos hlen
  refine ⟨t, ?_⟩
  rw [processWithXor, hplain, if_neg Bool.false_ne_true, xorEncrypt, ht, host_ok_bind]

/-- The wire text of at least one unit is decrypted (rules R218, R219). -/
theorem processWithXor_wire {s : State} {values key : List Char16} (h0 : s.err = 0) (hpos : 1 ≤ key.length)
    (hlen : key.length ≤ 256) (hne : values ≠ []) : ∃ t,
    processWithXor s ((xorWireEncode values).map (BitVec.ofNat 16)) key = .ok (t, xorText values key) := by
  obtain ⟨t, ht⟩ := xorUnits_ok values key h0 hpos hlen
  refine ⟨t, ?_⟩
  rw [processWithXor, unitPoints_xorWireEncode, if_pos (looksEncryptedXor_xorWireEncode hne), xorDecrypt,
    unitPoints_xorWireEncode, xorWireParse_xorWireEncode hne]
  exact ht

/-- Settles O59: the wire text of a text that is not empty is taken for ciphertext and parsed back; that of the empty text is
empty, so it is encrypted again, to nothing. -/
theorem xorTextRoundTrip : Obligations.XorTextRoundTrip := by
  unfold Obligations.XorTextRoundTrip
  intro s s' text key h0 h0' hpos hlen hplain
  obtain ⟨t, henc⟩ := processWithXor_plain h0 hpos hlen hplain
  by_cases hne : text = []
  · subst hne
    obtain ⟨u, hu⟩ := processWithXor_plain h0' hpos hlen hplain
    exact ⟨t, _, u, henc, hu⟩
  · have hvalues : xorText text key ≠ [] := by
      rwa [← List.length_pos_iff, xorText_length, List.length_pos_iff]
    obtain ⟨u, hu⟩ := processWithXor_wire h0' hpos hlen hvalues
    rw [xorText_xorText] at hu
    exact ⟨t, _, u, henc, hu⟩

end Sys2Proof.Machine.Contract
end

section
/-! UTF-8 text is decoded to itself (rule R201). -/

namespace Sys2Proof.Machine.Contract

theorem toNat_ofNat_byte {n : Nat} (h : n < 256) : (UInt8.ofNat n).toBitVec.toNat = n := UInt8.toNat_ofNat_of_lt h

/-- A character is read off the front of its own UTF-8 bytes: its lead byte tells their number, and its payload bits are
split over them. -/
theorem readChar_utf8EncodeChar (c : Char) (rest : List Byte) :
    readChar ((String.utf8EncodeChar c).map UInt8.toBitVec ++ rest) = some (c, rest) := by
  have hlt : c.val.toNat < 0x110000 := by
    have hvalid := c.valid
    simp only [UInt32.isValidChar, Nat.isValidChar] at hvalid; omega
  have hc : Char.ofNat c.val.toNat = c := Char.ofNat_toNat c
  unfold String.utf8EncodeChar
  generalize c.val.toNat = v at *
  subst hc
  simp only
  split_ifs with h1 h2 h3
  all_goals
    simp (disch := omega) only [List.map_cons, List.map_nil, List.cons_append, List.nil_append, readChar, contBits,
      toNat_ofNat_byte]
  case pos => rw [if_pos (by omega)]
  case pos =>
    have hv : (v / 64 % 32 + 192) % 32 * 64 + (v % 64 + 128) % 64 = v := by omega
    rw [if_neg (by omega), if_pos (by omega), hv]
  case pos =>
    have hv : ((v / 4096 % 16 + 224) % 16 * 64 + (v / 64 % 64 + 128) % 64) * 64 + (v % 64 + 128) % 64 = v := by omega
    rw [if_neg (by omega), if_neg (by omega), if_pos (by omega), hv]
  case neg =>
    have hv : (((v / 262144 % 8 + 240) % 8 * 64 + (v / 4096 % 64 + 128) % 64) * 64 + (v / 64 % 64 + 128) % 64) * 64 +
      (v % 64 + 128) % 64 = v := by omega
    rw [if_neg (by omega), if_neg (by omega), if_neg (by omega), hv]

/-- Each character has at least one byte, so as much fuel as there are bytes reads them all. -/
theorem readChars_utf8Bytes (t : List Char) {fuel : Nat} (h : (utf8Bytes t).length ≤ fuel) :
    readChars fuel (utf8Bytes t) = some t := by
  induction t generalizing fuel with
  | nil => cases fuel <;> rfl
  | cons c t ih =>
    have hcons : utf8Bytes (c :: t) = (String.utf8EncodeChar c).map UInt8.toBitVec ++ utf8Bytes t := List.flatMap_cons
    have hpos : 0 < (String.utf8EncodeChar c).length := List.length_pos_of_ne_nil String.utf8EncodeChar_ne_nil
    have hlen : (utf8Bytes (c :: t)).length = (String.utf8EncodeChar c).length + (utf8Bytes t).length := by simp [hcons]
    obtain ⟨n, rfl⟩ : ∃ n, fuel = n + 1 := ⟨fuel - 1, by omega⟩
    rw [readChars, hcons, readChar_utf8EncodeChar]
    · exact congrArg (Option.map (c :: ·)) (ih (by omega))
    · exact List.ne_nil_of_length_pos (by omega)

/-- Decoding the UTF-8 bytes of a text gives the text. -/
theorem utf8Decode_utf8Bytes (t : List Char) : utf8Decode (utf8Bytes t) = .text t := by
  rw [utf8Decode, readChars_utf8Bytes t le_rfl]
  exact if_pos rfl

end Sys2Proof.Machine.Contract
end

section
/-! The AES text path: blocks, passes over the engine, and decrypting what was encrypted (rules R201, R208, R209, R221). -/

namespace Sys2Proof.Machine

/-! ## The pipelines read the current schedule only (rules R147, R180, R181) -/

section Schedule

variable {rk rk' : Vector Word 60} {nr : Nat} (h14 : nr ≤ 14)
  (hsame : ∀ i : Fin 60, i.val < 4 * (nr + 1) → rk[i] = rk'[i])
include h14 hsame

/-- Stores that agree on the current schedule add the same round keys. -/
theorem arkWith_congr {k : Nat} (hk : k ≤ nr) (m : Matrix) : arkWith rk k m = arkWith rk' k m := by
  have hkey : roundKey rk k = roundKey rk' k := by
    apply Vector.ext
    intro j hj
    have h := hsame ⟨4 * k + j, by omega⟩ (by simp only; omega)
    have hword (store : Vector Word 60) := roundKey_getElem store k ⟨j, hj⟩ (by simp only; omega)
    exact (hword rk).trans (h.trans (hword rk').symm)
  rw [arkWith, arkWith, hkey]

/-- Stores that agree on the current schedule encrypt alike. -/
theorem cipher_congr (m : Matrix) : cipher rk nr m = cipher rk' nr m := by
  have hrounds : (middleRounds nr).foldl (forwardRound rk) (arkWith rk 0 m) =
      (middleRounds nr).foldl (forwardRound rk') (arkWith rk' 0 m) := by
    rw [arkWith_congr h14 hsame (Nat.zero_le _)]
    refine List.foldl_ext _ _ _ fun m k hk => ?_
    exact arkWith_congr h14 hsame (le_of_mem_middleRounds hk) _
  rw [cipher, cipher, arkWith_congr h14 hsame le_rfl, hrounds]

end Schedule

/-! ## An engine with a schedule loaded (rules R81, R183, R184) -/

/-- An unfaulted engine with these round keys. -/
structure State.Keyed (rk : Vector Word 60) (nr : Nat) (s : State) : Prop where
  err : s.err = 0
  rkv : s.rkv = true
  rk_eq : s.rk = rk
  nr_eq : s.nr.toNat = nr

/-- The block the forward pipeline makes of a block. -/
def encBlock (rk : Vector Word 60) (nr : Nat) (b : Block) : Block := fromState (cipher rk nr (toState b))

/-- The block the inverse pipeline makes of a block. -/
def decBlock (rk : Vector Word 60) (nr : Nat) (b : Block) : Block := fromState (invCipher rk nr (toState b))

/-- Decrypting undoes encrypting, also on an engine that holds other words past the current schedule. -/
theorem decBlock_comp_encBlock {rk rk' : Vector Word 60} {nr : Nat} (h14 : nr ≤ 14)
    (hsame : ∀ i : Fin 60, i.val < 4 * (nr + 1) → rk[i] = rk'[i]) : decBlock rk' nr ∘ encBlock rk nr = id := by
  funext b
  rw [Function.comp, decBlock, encBlock, toState_fromState, cipher_congr h14 hsame, invCipher_cipher, fromState_toState, id]

namespace Contract

/-- A pass whose pipeline command leaves `b` in BLK gives the host the bytes of `b` after 17 other responses. -/
theorem runOk_pass {rk : Vector Word 60} {nr : Nat} {s : State} {i : Instr} {d b : Block} {m : Matrix} (hs : s.Keyed rk nr)
    (hi : exec i { s with blk := d, rsp := none } = .next (State.complete { s with blk := b, st := m } 0)) :
    ∃ t, t.Keyed rk nr ∧
      runOk s (loadBlock d ++ [i] ++ readBlock) = .ok (t, List.replicate 17 0 ++ b.toList.map zext8) := by
  have hok : ∀ r ∈ okResponses (fun _ => 0) 17 ++ b.toList.map (fun v => ⟨true, zext8 v⟩), r.ok = true :=
    List.forall_mem_append.mpr ⟨fun _ => ok_of_mem_okResponses, List.forall_mem_map.mpr fun _ _ => rfl⟩
  refine ⟨State.complete { s with blk := b, st := m } (zext8 b[15]), ⟨hs.err, hs.rkv, hs.rk_eq, hs.nr_eq⟩, ?_⟩
  rw [runOk_of_runCommands (runCommands_pass hs.err hi) hok, List.map_append, List.map_map]
  rfl

/-- `ENCBLK` on a keyed engine (rules R81, R183). -/
theorem runOk_encblk {rk : Vector Word 60} {nr : Nat} {s : State} (hs : s.Keyed rk nr) (d : Block) : ∃ t, t.Keyed rk nr ∧
    runOk s (Pseudo.encblk d).expand = .ok (t, List.replicate 17 0 ++ (encBlock rk nr d).toList.map zext8) := by
  obtain ⟨h0, hkey, rfl, rfl⟩ := hs
  exact runOk_pass (b := encBlock s.rk s.nr.toNat d) ⟨h0, hkey, rfl, rfl⟩ (exec_enc h0 hkey)

/-- `DECBLK` on a keyed engine (rules R81, R184). -/
theorem runOk_decblk {rk : Vector Word 60} {nr : Nat} {s : State} (hs : s.Keyed rk nr) (d : Block) : ∃ t, t.Keyed rk nr ∧
    runOk s (Pseudo.decblk d).expand = .ok (t, List.replicate 17 0 ++ (decBlock rk nr d).toList.map zext8) := by
  obtain ⟨h0, hkey, rfl, rfl⟩ := hs
  exact runOk_pass (b := decBlock s.rk s.nr.toNat d) ⟨h0, hkey, rfl, rfl⟩ (exec_dec h0 hkey)

/-- A pass that works on every keyed engine works on block after block (rule R208). -/
theorem runBlocks_ok {pass : Block → Pseudo} {f : Block → Block} {rk : Vector Word 60} {nr : Nat}
    (hpass : ∀ {s : State}, s.Keyed rk nr → ∀ d, ∃ t, t.Keyed rk nr ∧
      runOk s (pass d).expand = .ok (t, List.replicate 17 0 ++ (f d).toList.map zext8))
    {s : State} (hs : s.Keyed rk nr) (bs : List Block) :
    ∃ t, runBlocks pass s bs = .ok (t, (bs.map f).flatMap Vector.toList) := by
  induction bs generalizing s with
  | nil => exact ⟨s, rfl⟩
  | cons b bs ih =>
    obtain ⟨t, ht, hrun⟩ := hpass hs b
    obtain ⟨u, hrest⟩ := ih ht
    have hbytes : ((List.replicate 17 (0 : Word) ++ (f b).toList.map zext8).drop 17).map (fun w => w.setWidth 8) =
        (f b).toList := by
      rw [List.drop_left' List.length_replicate, List.map_map]
      exact (List.map_congr_left fun v _ => zext8_low v).trans (List.map_id _)
    simp only [runBlocks, hrun, host_ok_bind, hrest, hbytes]
    exact ⟨u, rfl⟩

/-- `LDKEY` leaves the engine keyed with the key's expansion (rule R150). -/
theorem runOk_ldkey {s : State} (key : List Byte) (h0 : s.err = 0) : ∃ t data,
    t.Keyed (storeWords s.rk (expand key).words) (expand key).nr ∧ runOk s (Pseudo.ldkey key).expand = .ok (t, data) := by
  have hok : ∀ r ∈ okResponses (fun _ => 0) (key.length + 1) ++ [⟨true, 0⟩], r.ok = true :=
    List.forall_mem_append.mpr ⟨fun _ => ok_of_mem_okResponses, by simp⟩
  refine ⟨_, _, ?_, runOk_of_runCommands (runCommands_ldkey key h0) hok⟩
  exact ⟨h0, rfl, rfl, (expand_legalSizes key).toNat_ofNat.2⟩

/-- The AES path loads the key once and makes one pass per block (rules R208, R209). -/
theorem aesBytes_ok {pass : Block → Pseudo} {f : Vector Word 60 → Nat → Block → Block}
    (hpass : ∀ {rk nr} {s : State}, s.Keyed rk nr → ∀ d, ∃ t, t.Keyed rk nr ∧
      runOk s (pass d).expand = .ok (t, List.replicate 17 0 ++ (f rk nr d).toList.map zext8))
    {s : State} (h0 : s.err = 0) (key bytes : List Byte) : ∃ t, aesBytes pass s key bytes =
      .ok (t, ((blocks bytes).map (f (storeWords s.rk (expand key).words) (expand key).nr)).flatMap Vector.toList) := by
  obtain ⟨t, data, ht, hload⟩ := runOk_ldkey key h0
  obtain ⟨u, hrun⟩ := runBlocks_ok hpass ht (blocks bytes)
  refine ⟨u, ?_⟩
  rw [aesBytes, hload, host_ok_bind]
  exact hrun

/-! ## Whole blocks of a byte sequence (rule R208) -/

/-- Byte `i` of block `j` stands at `16 * j + i`. -/
theorem getD_flatMap_toList (bs : List Block) {j i : Nat} (hj : j < bs.length) (hi : i < 16) :
    (bs.flatMap Vector.toList).getD (16 * j + i) 0 = bs[j][i] := by
  induction bs generalizing j with
  | nil => exact absurd hj (Nat.not_lt_zero _)
  | cons b bs ih =>
    rw [List.flatMap_cons]
    cases j with
    | zero =>
      rw [List.getD_append _ _ _ _ (by simp; omega)]
      simp [List.getD_eq_getElem?_getD, hi]
    | succ j =>
      rw [List.getD_append_right _ _ _ _ (by simp; omega)]
      have hidx : 16 * (j + 1) + i - b.toList.length = 16 * j + i := by simp; omega
      rw [hidx, ih (by simpa using hj)]
      rfl

theorem length_flatMap_toList (bs : List Block) : (bs.flatMap Vector.toList).length = 16 * bs.length := by
  induction bs with
  | nil => rfl
  | cons b bs ih => simp [ih]; omega

/-- Cutting whole blocks apart undoes joining them. -/
theorem blocks_flatMap_toList (bs : List Block) : blocks (bs.flatMap Vector.toList) = bs := by
  have hlen : (blocks (bs.flatMap Vector.toList)).length = bs.length := by
    simp [blocks]
  refine List.ext_getElem hlen fun j _ hj => Vector.ext fun i hi => ?_
  simp only [blocks, List.getElem_map, List.getElem_range, Vector.getElem_ofFn]
  exact getD_flatMap_toList bs hj hi

/-- Joining whole blocks undoes cutting them apart. -/
theorem flatMap_toList_blocks {bytes : List Byte} (h : bytes.length % 16 = 0) :
    (blocks bytes).flatMap Vector.toList = bytes := by
  have hblocks : (blocks bytes).length = bytes.length / 16 := by simp [blocks]
  have hlen : ((blocks bytes).flatMap Vector.toList).length = bytes.length := by
    rw [length_flatMap_toList, hblocks]; omega
  refine List.ext_getElem hlen fun n hn hn' => ?_
  have hidx : n = 16 * (n / 16) + n % 16 := (Nat.div_add_mod n 16).symm
  have hget := getD_flatMap_toList (blocks bytes) (j := n / 16) (i := n % 16) (by omega) (by omega)
  rw [← hidx, List.getD_eq_getElem _ _ hn] at hget
  rw [hget]
  simp only [blocks, List.getElem_map, List.getElem_range, Vector.getElem_ofFn, ← hidx]
  exact List.getD_eq_getElem _ _ hn'

/-! ## Wire text as characters (rules R210, R211) -/

/-- A text of pieces joined by spaces holds the characters of the pieces and spaces. -/
theorem mem_intercalate_space {pieces : List (List Nat)} {c : Nat} (h : c ∈ List.intercalate [space] pieces) :
    c = space ∨ ∃ piece ∈ pieces, c ∈ piece := by
  induction pieces with
  | nil => simp at h
  | cons p ps ih =>
    cases ps with
    | nil => exact .inr ⟨p, List.mem_cons_self, by simpa using h⟩
    | cons q qs =>
      rw [List.intercalate_cons_cons, List.mem_append, List.mem_append, List.mem_singleton] at h
      obtain (hp | hc) | hrest := h
      · exact .inr ⟨p, List.mem_cons_self, hp⟩
      · exact .inl hc
      · exact (ih hrest).imp_right fun ⟨piece, hpiece, hc⟩ => ⟨piece, List.mem_cons_of_mem _ hpiece, hc⟩

/-- The code points of AES wire text are those of its characters, all of them ASCII. -/
theorem codePoints_wireChars_wireEncode (bytes : List Byte) :
    codePoints (wireChars (wireEncode bytes)) = wireEncode bytes := by
  have hascii : ∀ c ∈ wireEncode bytes, (Char.ofNat c).toNat = c := by
    intro c hc
    have hlt : c < 128 := by
      obtain rfl | ⟨piece, hpiece, hcp⟩ := mem_intercalate_space hc
      · decide
      · obtain ⟨b, _, rfl⟩ := List.mem_map.mp hpiece
        obtain ⟨_, hdigits, _⟩ := isNumber_decimal (le_refl b.toNat)
        have := (hdigits c hcp).2; omega
    rw [Char.toNat_ofNat, if_pos (.inl (by omega))]
  rw [codePoints, wireChars, List.map_map]
  exact (List.map_congr_left hascii).trans (List.map_id _)

/-! ## The round trip (rule R221) -/

/-- Encryption encrypts the padded bytes of the text block by block (rule R208). -/
theorem encrypt_ok {s : State} (text key : List Char) (h0 : s.err = 0) : ∃ t, encrypt s text key = .ok (t,
    wireChars (wireEncode (((blocks (pad (utf8Bytes text))).map
      (encBlock (storeWords s.rk (expand (utf8Bytes key)).words) (expand (utf8Bytes key)).nr)).flatMap Vector.toList))) := by
  obtain ⟨t, ht⟩ := aesBytes_ok runOk_encblk h0 (utf8Bytes key) (pad (utf8Bytes text))
  exact ⟨t, by rw [encrypt, ht, host_ok_bind]⟩

/-- Decryption of the wire text of whole blocks decrypts them block by block (rule R209). -/
theorem decrypt_ok {s : State} (bs : List Block) (key : List Char) (h0 : s.err = 0) : ∃ t,
    decrypt s (wireChars (wireEncode (bs.flatMap Vector.toList))) key = .ok (t, utf8Decode (unpad ((bs.map
      (decBlock (storeWords s.rk (expand (utf8Bytes key)).words) (expand (utf8Bytes key)).nr)).flatMap Vector.toList))) := by
  obtain ⟨t, ht⟩ := aesBytes_ok runOk_decblk h0 (utf8Bytes key) (bs.flatMap Vector.toList)
  have hwhole : ¬ (bs.flatMap Vector.toList).length % 16 ≠ 0 := by rw [length_flatMap_toList]; omega
  refine ⟨t, ?_⟩
  rw [decrypt, codePoints_wireChars_wireEncode, wireParse_wireEncode]
  simp only [if_neg hwhole, ht, host_ok_bind, blocks_flatMap_toList]

/-- A schedule has at most 14 rounds (rule R143). -/
theorem expand_nr_le (key : List Byte) : (expand key).nr ≤ 14 := by
  have hsizes := expand_legalSizes key
  unfold legalSizes at hsizes; omega

/-- Two engines that expanded one key agree on its schedule, whatever their stores held before (rule R150). -/
theorem storeWords_expand_agree (rk rk' : Vector Word 60) (key : List Byte) (i : Fin 60)
    (hi : i.val < 4 * ((expand key).nr + 1)) :
    (storeWords rk (expand key).words)[i] = (storeWords rk' (expand key).words)[i] := by
  have hlt : i.val < (expand key).words.length := expand_words_length key ▸ hi
  exact (storeWords_getElem_of_lt rk hlt).trans (storeWords_getElem_of_lt rk' hlt).symm

/-- Settles O58: the two engines hold the same schedule for the key, so each block is decrypted to itself, and what is left
is unpadding and decoding. -/
theorem aesTextRoundTrip : Obligations.AesTextRoundTrip := by
  unfold Obligations.AesTextRoundTrip
  intro s s' text key h0 h0'
  have hblocks := decBlock_comp_encBlock (expand_nr_le (utf8Bytes key)) (storeWords_expand_agree s.rk s'.rk (utf8Bytes key))
  have hwhole : (pad (utf8Bytes text)).length % 16 = 0 := by rw [pad_length, Nat.mul_mod_right]
  obtain ⟨t, henc⟩ := encrypt_ok text key h0
  obtain ⟨u, hdec⟩ := decrypt_ok _ key h0'
  refine ⟨t, _, u, henc, hdec.trans ?_⟩
  rw [List.map_map, hblocks, List.map_id, flatMap_toList_blocks hwhole, unpad_pad, utf8Decode_utf8Bytes]

end Contract

end Sys2Proof.Machine
end
